-- ==== Sys2Proof/Word.lean ====
section
/-! DEFINITION. The two sizes of bit string the machine computes with: a word of `W` bits, the unit of memory and of
computation (R4, R12), and a 5-bit word address (R7, R23). A bit string is a `BitVec`, so bit 0 is the least significant
(R11). What reads or makes one (signed value, masking, bit fields) is in Decode.lean. -/

namespace Sys2Proof

/-- A word: `W` bits (R4, R12). -/
abbrev Word (W : Nat) := BitVec W

/-- A word address or a program counter: 5 bits whatever the word width is (R7 (b), R21, R23). -/
abbrev Addr := BitVec 5

end Sys2Proof
end

