-- ==== Sys2Proof/Config.lean ====
section
/-! DEFINITION. What an implementation fixes: the parameters `W`, `F` and `SUB_ENC` of R4 to R6, the bounds outside which
the model gives no meaning (R5), and the reference instantiation. The machine has no free value (93_implementation_defined,
end of Part 1), so nothing here is opaque. -/

namespace Sys2Proof

/-- The parameters of the block (R4, R5, R6). -/
structure Config where
  /-- `W`, the word width in bits (R4). -/
  W : Nat
  /-- `F`, the width of the instruction field, the low `F` bits of a word (R5). -/
  F : Nat
  /-- `SUB_ENC`, the opcode `encode` emits for Subtract (R6). -/
  subEnc : BitVec 3
  deriving DecidableEq, Repr

/-- `8 <= F <= W` (R5; it gives `W >= 8` too, R4) and `SUB_ENC` is `001` or `101` (R6). -/
def Config.valid (c : Config) : Bool :=
  decide (8 ≤ c.F) && decide (c.F ≤ c.W) && (c.subEnc == 0b001#3 || c.subEnc == 0b101#3)

/-- The spec's value of `SUB_ENC` (R6, R72; decision D4). -/
def subEncReference : BitVec 3 := 0b001#3

/-- The reference instantiation `W = 32`, `F = 16`, `SUB_ENC = 0b001` of the test vectors and of `opcode_table.json`
(R4 to R6). DESIGN CHOICE: the machine under the host's fixed names is this instantiation (log entry 1). -/
def Config.reference : Config := { W := 32, F := 16, subEnc := subEncReference }

end Sys2Proof
end

