-- ==== Sys2Proof/Syntax.lean ====
section
/-! DEFINITION. The symbolic instructions, "a tagged union" of eight variants (R14). The table's two Subtract rows are two
bit patterns of one instruction (R65, R123), so they have one constructor. -/

namespace Sys2Proof

/-- A symbolic instruction (R14). The payload of an address-bearing variant is any integer, of which only the value modulo
32 is observable (R14, R69; decision D12). -/
inductive Instr where
  /-- Jump(addr), R110: `addr` names the word that holds the target. -/
  | jump (a : Int)
  /-- RelativeJump(offset), R112: the payload names the word that holds the offset, it is not the offset. -/
  | relativeJump (a : Int)
  /-- Negate(addr), R120. -/
  | negate (a : Int)
  /-- Store(addr), R135. -/
  | store (a : Int)
  /-- Subtract(addr), R123: opcode `001`, and on decode also `101` (R65). -/
  | subtract (a : Int)
  /-- SkipIfNegative, R140. -/
  | skipIfNegative
  /-- Stop, R143. -/
  | stop
  /-- AbsoluteValue(raw word), R150: assembly only, never answered by `decode`. -/
  | absoluteValue (v : Int)
  deriving DecidableEq, Repr

end Sys2Proof
end

