-- ==== Sys2Proof/WellFormed.lean ====
section
/-! DEFINITION. Which symbolic instructions are spelled as they stand: an operand in `0..31` (R74: exactly then does
`decode (encode i)` give `i` back) and a data value that fits a word (R151). Other operands are not errors, they alias
modulo 32 (R42, R69). -/

namespace Sys2Proof

/-- The seven variants the engine executes (R1, R64), as against AbsoluteValue, which exists "only during assembly" (R14). -/
def Instr.isRuntime : Instr → Bool
  | .jump _ | .relativeJump _ | .negate _ | .store _ | .subtract _ => true
  | .skipIfNegative | .stop => true
  | .absoluteValue _ => false

/-- The payload of an address-bearing variant is already a 5-bit address. -/
def operandFits (a : Int) : Bool := decide (0 ≤ a) && decide (a < 32)

/-- The value of an AbsoluteValue is representable in a word: `-2^(W-1) <= v <= 2^W - 1` (R151; decision D14). -/
def valueFits (W : Nat) (v : Int) : Bool := decide (-(2 : Int) ^ (W - 1) ≤ v) && decide (v < (2 : Int) ^ W)

/-- An instruction some word of `W` bits stands for as it is written. -/
def Instr.wellFormed (W : Nat) : Instr → Bool
  | .jump a => operandFits a
  | .relativeJump a => operandFits a
  | .negate a => operandFits a
  | .store a => operandFits a
  | .subtract a => operandFits a
  | .skipIfNegative => true
  | .stop => true
  | .absoluteValue v => valueFits W v

end Sys2Proof
end

