-- ==== Sys2Proof/Decode.lean ====
section
/-! DEFINITION. The Instruction Codec of 30_encoding: the bit fields of a word (R61), `decode` (R66), `get_operand` (R69)
and `encode` (R70 to R73), for every word width `W`, field width `F` and `SUB_ENC`; with them the readings of a word
(R12). `decode` is total and rejects nothing: all eight opcode values are assigned (R64, R67). -/

namespace Sys2Proof

/-! ## Readings of a word (R12) -/

/-- `sval(w)`: the two's-complement reading (R12; decision D5). -/
def sval {W : Nat} (w : BitVec W) : Int := w.toInt

/-- `uval(w)`: the unsigned reading (R12). -/
def uval {W : Nat} (w : BitVec W) : Nat := w.toNat

/-- `word(z)`: the word whose unsigned value is `z mod 2^W` (R12). -/
def word (W : Nat) (z : Int) : BitVec W := BitVec.ofInt W z

/-- `z & 0x1F` for an integer: the address `z mod 32`, in `0..31` for every `z` (R12, R42, R69). -/
def maskAddr (z : Int) : Addr := BitVec.ofInt 5 z

/-- `w[4:0]`, which is `w & 0x1F` (R12). -/
def low5 {W : Nat} (w : BitVec W) : Addr := w.extractLsb' 0 5

/-- `field(w) = w[F-1:0]`, the instruction field of a word (R5, R13, R24). -/
def field (F : Nat) {W : Nat} (w : BitVec W) : BitVec F := w.extractLsb' 0 F

/-- The opcode of a word, `w[F-1:F-3]` (R61, R63; decision D1 for the digit order). -/
def opcodeBits (F : Nat) {W : Nat} (w : BitVec W) : BitVec 3 := w.extractLsb' (F - 3) 3

/-! ## decode (R64 to R68) -/

/-- `decode(w)` (R66): opcode and operand are extracted, the bits between and above are ignored (R68), both Subtract
patterns give Subtract (R65), and Stop is the default arm, as the document has it (R67). Applied to an instruction register
(`W` being `F`) it is the `decode(ir)` of R66 and R91. -/
def decode (F : Nat) {W : Nat} (w : BitVec W) : Instr :=
  match opcodeBits F w with
  | 0b000#3 => .jump (low5 w).toNat
  | 0b100#3 => .relativeJump (low5 w).toNat
  | 0b010#3 => .negate (low5 w).toNat
  | 0b110#3 => .store (low5 w).toNat
  | 0b001#3 => .subtract (low5 w).toNat
  | 0b101#3 => .subtract (low5 w).toNat
  | 0b011#3 => .skipIfNegative
  | _ => .stop

/-! ## get_operand (R69) -/

/-- `get_operand(i)` (R69): the masked operand of an address-bearing variant, 0 for the others. -/
def getOperand : Instr → Addr
  | .jump a => maskAddr a
  | .relativeJump a => maskAddr a
  | .negate a => maskAddr a
  | .store a => maskAddr a
  | .subtract a => maskAddr a
  | .skipIfNegative => 0#5
  | .stop => 0#5
  | .absoluteValue _ => 0#5

/-- The instruction with its operand reduced modulo 32: what `decode` after `encode` gives for a run-time variant (R74). -/
def Instr.reduce : Instr → Instr
  | .jump a => .jump (maskAddr a).toNat
  | .relativeJump a => .relativeJump (maskAddr a).toNat
  | .negate a => .negate (maskAddr a).toNat
  | .store a => .store (maskAddr a).toNat
  | .subtract a => .subtract (maskAddr a).toNat
  | .skipIfNegative => .skipIfNegative
  | .stop => .stop
  | .absoluteValue v => .absoluteValue v

/-! ## encode (R70 to R73) -/

/-- `zext_W(op * 2^(F-3) + n)`: opcode and operand in their fields, every other bit zero (R61, R70; decision D7). -/
def packWord (W F : Nat) (op : BitVec 3) (n : Addr) : BitVec W := BitVec.ofNat W (op.toNat * 2 ^ (F - 3) + n.toNat)

/-- `encode(i)` (R70 to R73). Subtract takes the one pattern `subEnc` (R65, R72); an operand-less variant has operand 0
(R71); AbsoluteValue is its literal integer as a word (R73). DESIGN CHOICE: the function is total, and for an AbsoluteValue
that does not fit a word, which R73 and R14 keep out and vector E14 calls refused (R151), what it gives (`v mod 2^W`) means
nothing; the operation that refuses is `Config.encodeWord` (log entry 18). -/
def encode (W F : Nat) (subEnc : BitVec 3) (i : Instr) : BitVec W :=
  match i with
  | .jump _ => packWord W F 0b000#3 (getOperand i)
  | .relativeJump _ => packWord W F 0b100#3 (getOperand i)
  | .negate _ => packWord W F 0b010#3 (getOperand i)
  | .store _ => packWord W F 0b110#3 (getOperand i)
  | .subtract _ => packWord W F subEnc (getOperand i)
  | .skipIfNegative => packWord W F 0b011#3 (getOperand i)
  | .stop => packWord W F 0b111#3 (getOperand i)
  | .absoluteValue v => word W v

/-- `encode` of the reference instantiation `W = 32, F = 16, SUB_ENC = 0b001`. -/
def encodeReference (i : Instr) : BitVec 32 := encode 32 16 subEncReference i

/-! ## The codec of a configuration (R9), with the refusals of R5 and R151 -/

/-- `decode` for a configuration, which is refused outside the bounds of R5 and R6 (decision D20). -/
def Config.decodeWord (c : Config) (w : BitVec c.W) : Option Instr := if c.valid then some (decode c.F w) else none

/-- An instruction `encode` has a word for: any payload of an address-bearing variant, since it is masked (R69, R70), and a
data value that fits a word (R73, R151; decision D14). -/
def Instr.encodable (W : Nat) : Instr → Bool
  | .absoluteValue v => valueFits W v
  | .jump _ | .relativeJump _ | .negate _ | .store _ | .subtract _ | .skipIfNegative | .stop => true

/-- `encode` for a configuration, refused outside the bounds of R5 and R6 (decision D20) and for an AbsoluteValue that does
not fit a word (R151, vector E14). -/
def Config.encodeWord (c : Config) (i : Instr) : Option (BitVec c.W) :=
  if c.valid && i.encodable c.W then some (encode c.W c.F c.subEnc i) else none

/-! ## The host's numbering of an instruction -/

/-- The word whose bits the opcode table numbers: bit 0 the least significant, every bit above `nbits` zero. An instruction
is one word (R60), so no byte or word order enters. -/
def tableWord (nbits w : Nat) : BitVec 32 := BitVec.ofNat 32 (w % 2 ^ nbits)

/-- What the decoder reads from an instruction whose bits are `w`: always an instruction, since `decode` is total (R67). -/
def decodeTableWord (nbits w : Nat) : Option Instr := some (decode 16 (tableWord nbits w))

end Sys2Proof
end

