-- ==== Sys2Proof/Machine/State.lean ====
section
/-! DEFINITION. The machine state, "exactly this record" of four pieces (R20), as plain data, for every word width `W` and
field width `F`; the state of the reference instantiation under the host's name; the reasons a step can end; the state
after reset (R195). -/

namespace Sys2Proof

/-- The 32-word memory (R21, R40) as a list of (address, word) cells in one canonical form (`Memory.wf` in Ops.lean). The
cell holds a word because the word is the unit of addressing and no bytes exist (R40, R43, R44). DESIGN CHOICE: log
entry 2. -/
abbrev Memory (W : Nat) := List (Nat × BitVec W)

/-- A memory image, the argument of `new_with_program`: exactly 32 words (R171, R197). -/
abbrev Image (W : Nat) := Vector (BitVec W) 32

namespace Engine

/-- The machine state (R20): memory, accumulator, program counter, instruction register, and nothing else (R26 to R28). -/
structure State (W F : Nat) where
  /-- `mem[0..31]`, instructions and data alike (R21). -/
  mem : Memory W
  /-- The accumulator, one word (R22). -/
  acc : BitVec W
  /-- The program counter: the address of the instruction now in `ir` (R23). -/
  pc : Addr
  /-- The instruction register: the instruction field of a memory word, fetched eagerly (R24; decision D3). -/
  ir : BitVec F
  deriving DecidableEq, Repr

/-- What `step` answers: "a two-constructor sum (state or `Stopped`)", both ordinary values (R90, R179). -/
inductive Result (W F : Nat) where
  /-- A new machine state. -/
  | state (s : State W F)
  /-- The termination signal `Stopped(addr)`, carrying the address of the Stop; no new state (R96, R176). -/
  | stopped (addr : Addr)
  deriving DecidableEq, Repr

end Engine

namespace Machine

/-- The state of the reference instantiation `W = 32, F = 16` (R4, R5; log entry 1). -/
abbrev State : Type := Engine.State 32 16

/-- What the host's step type has in place of `Engine.Result.stopped`: the machine raises no exception (R175), and the one
constructor is the termination signal carried over (`hostOutcome`; log entry 3). -/
inductive Fault where
  /-- The termination signal `Stopped(addr)`, raised by Stop alone, carrying the address of the Stop (R96, R143, R176). It
  is "Termination (not failure)": the defined end of a run. Safe: the spec gives the signal and no state after it (R182). -/
  | stopped (addr : Addr)
  deriving DecidableEq, Repr

/-- The reasons a step has no meaning, in the host's step type. No meaning of this model answers one: every arm is
`hostOutcome` of a two-way result, and `step` "never refuses" (R97). -/
inductive Refusal where
  /-- Raised only by an arm of `exec` that has no meaning yet; here no arm is so. Safe. -/
  | notModelled (mnemonic : String)
  deriving DecidableEq, Repr

/-- The machine right after reset, `new()` "(all zero)" (R195): no memory word listed (each reads 0), `acc`, `pc` and `ir`
zero. -/
def State.reset : State := { mem := [], acc := 0#32, pc := 0#5, ir := 0#16 }

end Machine

end Sys2Proof
end

