-- ==== Sys2Proof/Machine/Ops.lean ====
section
/-! DEFINITION. The named operations over memory and registers: reading and writing one word (R13, R43), the re-fetch that
ends every step that answers a state (R95), the two ways a state comes into being (R195, R196), and the signalling of
`Stopped` (R96). There is no exception to take and none to return from (R175, R182, R183): the termination signal is the
only event of the machine. -/

namespace Sys2Proof

/-! ## Memory -/

/-- What an unlisted word reads as: zero, the reset content of every word (R195, R47). -/
abbrev Memory.unlisted (W : Nat) : BitVec W := 0#W

/-- The word listed at address `k`, or what an unlisted word reads as. -/
def Memory.cellAt {W : Nat} (k : Nat) : List (Nat × BitVec W) → BitVec W
  | [] => Memory.unlisted W
  | (b, w) :: rest => if b = k then w else Memory.cellAt k rest

/-- `MemRead(a)`: the whole word at address `a` (R13, R43). Reading has no side effect and cannot fail (R42, R46). -/
def Memory.read {W : Nat} (m : Memory W) (a : Addr) : BitVec W := Memory.cellAt a.toNat m

/-- The cells without those at address `k`. -/
def Memory.erase {W : Nat} (k : Nat) (m : List (Nat × BitVec W)) : List (Nat × BitVec W) :=
  m.filter (fun c => c.1 != k)

/-- The cells with one more at address `k`, put before the first higher address. -/
def Memory.insertCell {W : Nat} (k : Nat) (v : BitVec W) : List (Nat × BitVec W) → List (Nat × BitVec W)
  | [] => [(k, v)]
  | (b, w) :: rest => if k < b then (k, v) :: (b, w) :: rest else (b, w) :: Memory.insertCell k v rest

/-- `MemWrite(a, v)`: the whole word at `a` becomes `v`, every other word stays (R13, R43, R46). Writing what an unlisted
word reads as removes the cell, so that the list stays canonical. -/
def Memory.write {W : Nat} (m : Memory W) (a : Addr) (v : BitVec W) : Memory W :=
  if v = Memory.unlisted W then Memory.erase a.toNat m else Memory.insertCell a.toNat v (Memory.erase a.toNat m)

/-- The canonical form from address `lo` on: addresses strictly rising, below 32, no cell equal to what an unlisted word
reads as. -/
def Memory.wfFrom {W : Nat} (lo : Nat) : List (Nat × BitVec W) → Bool
  | [] => true
  | (a, w) :: rest => decide (lo ≤ a) && decide (a < 32) && decide (w ≠ Memory.unlisted W) && Memory.wfFrom (a + 1) rest

/-- The canonical form of a memory: two canonical memories with equal words are equal data (R30). -/
def Memory.wf {W : Nat} (m : Memory W) : Bool := Memory.wfFrom 0 m

/-- The cells of a list of words placed from address `k` on. -/
def Memory.cellsFrom {W : Nat} (k : Nat) : List (BitVec W) → List (Nat × BitVec W)
  | [] => []
  | w :: rest => if w = Memory.unlisted W then Memory.cellsFrom (k + 1) rest else (k, w) :: Memory.cellsFrom (k + 1) rest

/-- The memory that holds an image: `mem[a] = m[a]` for every `a` in `0..31` (R196). -/
def Memory.ofImage {W : Nat} (m : Image W) : Memory W := Memory.cellsFrom 0 m.toList

/-- The 32 words in address order. -/
def Memory.words {W : Nat} (m : Memory W) : List (BitVec W) := (List.range 32).map (fun k => m.read (BitVec.ofNat 5 k))

/-! ## Registers -/

/-- `acc' <- v`. -/
def Engine.State.withAcc {W F : Nat} (s : Engine.State W F) (v : BitVec W) : Engine.State W F := { s with acc := v }

/-- `MemWrite(n, v)` on the state (R13). -/
def Engine.State.withWord {W F : Nat} (s : Engine.State W F) (n : Addr) (v : BitVec W) : Engine.State W F :=
  { s with mem := s.mem.write n v }

/-- `pc <- t` and the re-fetch `ir' = field(mem[pc'])` from the memory of the state given, which for a Store is the memory
after the write (R95, R50; decision D9). Every step that answers a state ends with it. -/
def Engine.State.continueAt {W F : Nat} (s : Engine.State W F) (t : Addr) : Engine.State W F :=
  { s with pc := t, ir := field F (s.mem.read t) }

/-! ## Reset and load (70_reset_and_hazards) -/

/-- `new()`: everything zero (R195). -/
def Engine.new (W F : Nat) : Engine.State W F := { mem := [], acc := 0#W, pc := 0#5, ir := 0#F }

/-- `new_with_program(m)`: the image as memory, `pc = 0`, `ir = field(m[0])`, `acc = word(0)` (R196; decision D8 for the
accumulator). -/
def Engine.newWithProgram {W : Nat} (F : Nat) (m : Image W) : Engine.State W F :=
  { mem := Memory.ofImage m, acc := 0#W, pc := 0#5, ir := field F m[0] }

/-- `new()` for a configuration, which is refused outside the bounds of R5 and R6 (decision D20). -/
def Config.newMachine (c : Config) : Option (Engine.State c.W c.F) := if c.valid then some (Engine.new c.W c.F) else none

/-- `new_with_program(m)` for a configuration, refused outside the same bounds. -/
def Config.loadMachine (c : Config) (m : Image c.W) : Option (Engine.State c.W c.F) :=
  if c.valid then some (Engine.newWithProgram c.F m) else none

/-- The state with word `w` where the next step finds its instruction: in `mem[pc]`, and its field in `ir`, which is what
a step decodes (R91); both, so that `ir = field(mem[pc])` holds as it does after a load (R25, R196). -/
def Engine.State.placeNext {W F : Nat} (s : Engine.State W F) (w : BitVec W) : Engine.State W F :=
  { s with mem := s.mem.write s.pc w, ir := field F w }

/-! ## The termination signal -/

/-- `signal Stopped(pc)`: the program counter of the input state is handed to the host and no new state is produced; nothing
is saved or written and control goes nowhere (R96, R182). -/
def Engine.signalStopped {W F : Nat} (s : Engine.State W F) : Engine.Result W F := .stopped s.pc

/-- The engine's two-way result in the host's three-way step type. DESIGN CHOICE: `Stopped`, an ordinary result value
(R179), stands in the host's fault case, and the refused case is not used (log entry 3). -/
def Machine.hostOutcome {W F : Nat} (r : Engine.Result W F) :
    Host.Outcome (Engine.State W F) Machine.Fault Machine.Refusal :=
  match r with
  | .state t => .next t
  | .stopped a => .fault (.stopped a)

end Sys2Proof
end

