-- ==== Sys2Proof/Machine/Operands.lean ====
section
/-! DEFINITION. The one operand form, a direct 5-bit word address (R77, R41), and the address arithmetic of the program
counter (R94). -/

namespace Sys2Proof.Engine

/-- `operand_value`: the word at the masked operand, read from the memory of the input state (R92). Where an instruction
does not use it the read is left out, which R92 allows: it has no side effect and cannot fail. -/
def operandValue {W F : Nat} (s : State W F) (a : Int) : BitVec W := s.mem.read (maskAddr a)

/-- `(pc + z) & 0x1F`: an exact sum of integers, reduced modulo 32 (R94). -/
def pcPlus (pc : Addr) (z : Int) : Addr := maskAddr ((pc.toNat : Int) + z)

end Sys2Proof.Engine
end

