-- ==== Sys2Proof/Machine/Flags.lean ====
section
/-! DEFINITION. The machine has no flags and no condition codes (R26). What stands here is the one condition an instruction
tests, the sign of the accumulator (R22, R140), and the two arithmetic results (R126), each exact on signed values and then
reduced to a word, so that overflow wraps and is recorded nowhere (R127; decisions D5, D6). -/

namespace Sys2Proof.Engine

/-- `sval(acc) < 0` (R140). -/
def isNegative {W : Nat} (w : BitVec W) : Bool := decide (sval w < 0)

/-- `word(-sval(v))`, the result of Negate (R120, R127). -/
def negated {W : Nat} (v : BitVec W) : BitVec W := word W (-sval v)

/-- `word(sval(acc) - sval(v))`, the result of Subtract (R123, R127). -/
def difference {W : Nat} (acc v : BitVec W) : BitVec W := word W (sval acc - sval v)

end Sys2Proof.Engine
end

