-- ==== Sys2Proof/Machine/Arithmetic.lean ====
section
/-! DEFINITION. Negate and Subtract, the two instructions that write the accumulator (42_negate_subtract). -/

namespace Sys2Proof

/-- Negate (R120): `acc' <- word(-sval(v))`, `pc' <- (pc + 1) & 0x1F`; the old accumulator is not read. -/
def Engine.negate {W F : Nat} (a : Int) (s : Engine.State W F) : Engine.Result W F :=
  .state ((s.withAcc (Engine.negated (Engine.operandValue s a))).continueAt (Engine.pcPlus s.pc 1))

/-- Subtract (R123): `acc' <- word(sval(acc) - sval(v))`, `pc' <- (pc + 1) & 0x1F`. -/
def Engine.subtract {W F : Nat} (a : Int) (s : Engine.State W F) : Engine.Result W F :=
  .state ((s.withAcc (Engine.difference s.acc (Engine.operandValue s a))).continueAt (Engine.pcPlus s.pc 1))

/-- Negate at the reference widths. -/
def Machine.execNegate (a : Int) (s : Machine.State) : Host.Outcome Machine.State Machine.Fault Machine.Refusal :=
  Machine.hostOutcome (Engine.negate a s)

/-- Subtract at the reference widths. -/
def Machine.execSubtract (a : Int) (s : Machine.State) : Host.Outcome Machine.State Machine.Fault Machine.Refusal :=
  Machine.hostOutcome (Engine.subtract a s)

end Sys2Proof
end

