-- ==== Sys2Proof/Machine/Jumps.lean ====
section
/-! DEFINITION. The unconditional transfers Jump and RelativeJump (41_jumps). Both take their target from a memory word.
Each instruction has its transition at every width (`Engine`) and, over it, its meaning under the host's `exec`. -/

namespace Sys2Proof

/-- Jump (R110): `pc' <- v & 0x1F`, then the re-fetch; nothing is added to the target. -/
def Engine.jump {W F : Nat} (a : Int) (s : Engine.State W F) : Engine.Result W F :=
  .state (s.continueAt (low5 (Engine.operandValue s a)))

/-- RelativeJump (R112): `pc' <- (pc + sval(v)) mod 32`, `pc` being the address of the RelativeJump itself. -/
def Engine.relativeJump {W F : Nat} (a : Int) (s : Engine.State W F) : Engine.Result W F :=
  .state (s.continueAt (Engine.pcPlus s.pc (sval (Engine.operandValue s a))))

/-- Jump at the reference widths. -/
def Machine.execJump (a : Int) (s : Machine.State) : Host.Outcome Machine.State Machine.Fault Machine.Refusal :=
  Machine.hostOutcome (Engine.jump a s)

/-- RelativeJump at the reference widths. -/
def Machine.execRelativeJump (a : Int) (s : Machine.State) : Host.Outcome Machine.State Machine.Fault Machine.Refusal :=
  Machine.hostOutcome (Engine.relativeJump a s)

end Sys2Proof
end

