-- ==== Sys2Proof/Machine/SkipStop.lean ====
section
/-! DEFINITION. SkipIfNegative and Stop, the two instructions without an operand (44_skip_stop). -/

namespace Sys2Proof

/-- SkipIfNegative (R140): `pc' <- (pc + (if sval(acc) < 0 then 2 else 1)) & 0x1F`, then the re-fetch. -/
def Engine.skipIfNegative {W F : Nat} (s : Engine.State W F) : Engine.Result W F :=
  .state (s.continueAt (Engine.pcPlus s.pc (if Engine.isNegative s.acc then 2 else 1)))

/-- Stop (R143): `signal Stopped(pc)`; no new state, nothing written, no re-fetch. -/
def Engine.stop {W F : Nat} (s : Engine.State W F) : Engine.Result W F := Engine.signalStopped s

/-- SkipIfNegative at the reference widths. -/
def Machine.execSkipIfNegative (s : Machine.State) : Host.Outcome Machine.State Machine.Fault Machine.Refusal :=
  Machine.hostOutcome (Engine.skipIfNegative s)

/-- Stop at the reference widths. -/
def Machine.execStop (s : Machine.State) : Host.Outcome Machine.State Machine.Fault Machine.Refusal :=
  Machine.hostOutcome (Engine.stop s)

end Sys2Proof
end

