-- ==== Sys2Proof/Machine/Store.lean ====
section
/-! DEFINITION. Store, the only instruction that writes memory (43_store). -/

namespace Sys2Proof

/-- Store (R135): `MemWrite(n, acc)`, `pc' <- (pc + 1) & 0x1F`, and the re-fetch from the memory after the write. -/
def Engine.store {W F : Nat} (a : Int) (s : Engine.State W F) : Engine.Result W F :=
  .state ((s.withWord (maskAddr a) s.acc).continueAt (Engine.pcPlus s.pc 1))

/-- Store at the reference widths. -/
def Machine.execStore (a : Int) (s : Machine.State) : Host.Outcome Machine.State Machine.Fault Machine.Refusal :=
  Machine.hostOutcome (Engine.store a s)

end Sys2Proof
end

