-- ==== Sys2Proof/Machine/Engine.lean ====
section
/-! DEFINITION. The transition `step` of the engine for every `W` and `F` (R90 to R97): decode `ir`, dispatch on the
variant. The machine under the host's fixed names has the same transitions at the reference widths (Dispatch.lean, Step.lean). -/

namespace Sys2Proof.Engine

/-- Part 3 of a step, the dispatch of R93 over the seven run-time variants. DESIGN CHOICE: the function is total on `Instr`,
and for an AbsoluteValue, which `decode` never answers and the engine never receives (R73, R150), it signals `Stopped`; the
spec gives no answer there, this one means nothing, and it is not that of `exec` (log entry 20). -/
def dispatch {W F : Nat} (i : Instr) (s : State W F) : Result W F :=
  match i with
  | .jump a => jump a s
  | .relativeJump a => relativeJump a s
  | .negate a => negate a s
  | .store a => store a s
  | .subtract a => subtract a s
  | .skipIfNegative => skipIfNegative s
  | .stop => stop s
  | .absoluteValue _ => stop s

/-- `step(state)` (R90): the instruction executed is `decode(ir)`; `mem[pc]` is not read to find it (R91). -/
def step {W F : Nat} (s : State W F) : Result W F := dispatch (decode F s.ir) s

end Sys2Proof.Engine
end

