-- ==== Sys2Proof/Machine/Pseudo.lean ====
section
/-! DEFINITION. AbsoluteValue, the pseudo-instruction (45_assembly, R150). Its effect is on the memory image and is in
Decode.lean (`encode`, R73) and Assembly.lean (`link`). -/

namespace Sys2Proof.Machine

/-- AbsoluteValue under `exec`: the engine executes whatever instruction the bits of the raw word `word(v)` spell (R150:
"If the program counter reaches the word, the engine executes whatever instruction the bits spell"; R68). DEDUCED: no step
comes here, since `decode` never answers AbsoluteValue and the engine never receives it (R73); log entry 4. -/
def execAbsoluteValue (v : Int) (s : State) : Host.Outcome State Fault Refusal :=
  hostOutcome (Engine.dispatch (decode 16 (word 32 v)) s)

end Sys2Proof.Machine
end

