-- ==== Sys2Proof/Machine/Dispatch.lean ====
section
/-! DEFINITION. The dispatch of R93 at the reference instantiation: one arm per constructor of Instr. -/

namespace Sys2Proof.Machine

def exec (i : Instr) (s : State) : Host.Outcome State Fault Refusal :=
  match i with
  -- 41_jumps
  | .jump a => Sys2Proof.Machine.execJump a s
  | .relativeJump a => Sys2Proof.Machine.execRelativeJump a s
  -- 42_negate_subtract
  | .negate a => Sys2Proof.Machine.execNegate a s
  -- 43_store
  | .store a => Sys2Proof.Machine.execStore a s
  -- 42_negate_subtract: both opcode patterns
  | .subtract a => Sys2Proof.Machine.execSubtract a s
  -- 44_skip_stop
  | .skipIfNegative => Sys2Proof.Machine.execSkipIfNegative s
  | .stop => Sys2Proof.Machine.execStop s
  -- 45_assembly: never answered by decode
  | .absoluteValue v => Sys2Proof.Machine.execAbsoluteValue v s

end Sys2Proof.Machine
end

