-- ==== Sys2Proof/Machine/Step.lean ====
section
/-! DEFINITION. One step of the reference instantiation (R90, R91), and the placing of an instruction where the next step
finds it. -/

namespace Sys2Proof.Machine

/-- `step(state)` (R90): execute `decode(ir)`. A step never looks at `mem[pc]` to find its instruction (R25, R91). -/
def step (s : State) : Host.Outcome State Fault Refusal := exec (decode 16 s.ir) s

/-- `s` with the instruction whose bits are `w` as the one the very next step executes: the word in `mem[pc]` and its field
in `ir`. It stands for a load of a program (R196); log entry 6. -/
def State.withFetchWord (s : State) (nbits w : Nat) : State := Engine.State.placeNext s (tableWord nbits w)

end Sys2Proof.Machine
end

