-- ==== Sys2Proof/Machine/Assembly.lean ====
section
/-! DEFINITION. The assembly level (45_assembly): value expressions, line records, tag association, the symbol table, the
linker and the memory image. It is surrounding software that shares the word format with the codec (R2); the textual
syntax is excluded by the spec (R3 (a), R173). -/

namespace Sys2Proof.Assembly

/-- A value expression (R153). -/
inductive ValueExpr where
  | literal (z : Int)
  | tagReference (name : String)
  deriving DecidableEq, Repr

/-- The payload of a real line (R154): a data line, or one of the seven run-time variants, the five address-bearing ones
with a value expression as operand. -/
inductive RealLine where
  /-- DataDeclaration: an AbsoluteValue whose value is an expression. -/
  | data (e : ValueExpr)
  | jump (e : ValueExpr)
  | relativeJump (e : ValueExpr)
  | negate (e : ValueExpr)
  | store (e : ValueExpr)
  | subtract (e : ValueExpr)
  | skipIfNegative
  | stop
  deriving DecidableEq, Repr

/-- A typed line record (R154). -/
inductive Line where
  | tag (name : String)
  | real (r : RealLine)
  deriving DecidableEq, Repr

/-- What makes linking fail; on any of them no image is produced (R169). -/
inductive LinkError where
  /-- A tag reference with no entry in the symbol table (R163, R169 (a)). -/
  | unknownTagName (name : String)
  /-- More than 32 real lines; carries their number (R169 (b), R170). -/
  | programTooLarge (len : Nat)
  /-- A data value that does not fit a word, which R151 refuses. DESIGN CHOICE: the constructor's name, and that it is
  reported in line order like an unknown tag (log entry 7). -/
  | valueDoesNotFit (v : Int)
  /-- The configuration is outside the bounds of R5 and R6, which refuse it (decision D20). DESIGN CHOICE: the constructor's
  name, and that it comes before every other error (log entry 9). -/
  | configurationRefused
  deriving DecidableEq, Repr

/-- Tag association (R156): each real line is paired with the tag declared immediately before it, if the record immediately
before it is a tag; a tag followed by another tag or by the end of the input binds nothing. `pending` is the tag declared
by the record just read. -/
def associateFrom (pending : Option String) : List Line → List (Option String × RealLine)
  | [] => []
  | .tag name :: rest => associateFrom (some name) rest
  | .real r :: rest => (pending, r) :: associateFrom none rest

/-- The "ordered sequence of (optional tag name, real-line payload) pairs" (R156). -/
def associate (lines : List Line) : List (Option String × RealLine) := associateFrom none lines

/-- A mapping from tag name to position (R160), the latest entry first. -/
abbrev SymbolTable := List (String × Nat)

/-- The position of a tag: the latest entry under its name (R162; decision D15, last-wins). -/
def SymbolTable.find (name : String) : SymbolTable → Option Nat
  | [] => none
  | (n, k) :: rest => if n = name then some k else SymbolTable.find name rest

/-- `build` (R160), from the pair at position `k` on, over the table made so far. -/
def buildFrom (k : Nat) (table : SymbolTable) : List (Option String × RealLine) → SymbolTable
  | [] => table
  | (some name, _) :: rest => buildFrom (k + 1) ((name, k) :: table) rest
  | (none, _) :: rest => buildFrom (k + 1) table rest

/-- `build(lines)` (R160): the whole table is built before any reference is resolved. -/
def build (pairs : List (Option String × RealLine)) : SymbolTable := buildFrom 0 [] pairs

/-- `resolve_value(expr, table)` (R163). -/
def resolveValue (table : SymbolTable) : ValueExpr → Except LinkError Int
  | .literal z => .ok z
  | .tagReference name =>
    match SymbolTable.find name table with
    | some k => .ok (k : Int)
    | none => .error (.unknownTagName name)

/-- A resolved data value as an AbsoluteValue, refused where it does not fit a word (R165, R151). -/
def dataInstr (W : Nat) (z : Int) : Except LinkError Instr :=
  if valueFits W z then .ok (.absoluteValue z) else .error (.valueDoesNotFit z)

/-- `resolve_line`, up to the symbolic instruction it stands for (R165, R166). -/
def resolveInstr (W : Nat) (table : SymbolTable) : RealLine → Except LinkError Instr
  | .data e => (resolveValue table e).bind (dataInstr W)
  | .jump e => (resolveValue table e).map .jump
  | .relativeJump e => (resolveValue table e).map .relativeJump
  | .negate e => (resolveValue table e).map .negate
  | .store e => (resolveValue table e).map .store
  | .subtract e => (resolveValue table e).map .subtract
  | .skipIfNegative => .ok .skipIfNegative
  | .stop => .ok .stop

/-- `resolve_line` (R165, R166): the image word is `encode` of the resolved instruction, so a literal operand outside
`0..31` wraps. -/
def resolveLine (c : Config) (table : SymbolTable) (r : RealLine) : Except LinkError (BitVec c.W) :=
  (resolveInstr c.W table r).map (encode c.W c.F c.subEnc)

/-- Every line in order, failing at the first line that does not resolve (R168, R169). -/
def resolveAll (c : Config) (table : SymbolTable) : List (Option String × RealLine) → Except LinkError (List (BitVec c.W))
  | [] => .ok []
  | (_, r) :: rest =>
    match resolveLine c table r with
    | .error e => .error e
    | .ok w =>
      match resolveAll c table rest with
      | .error e => .error e
      | .ok ws => .ok (w :: ws)

/-- The image of at most 32 words: "any position beyond the assembled program implicitly zero" (R171). -/
def imageOf {W : Nat} (ws : List (BitVec W)) (h : ws.length ≤ 32) : Image W :=
  ⟨(ws ++ List.replicate (32 - ws.length) 0#W).toArray, by simp; omega⟩

/-- The linker of R168 on the records: associate, build the table, resolve in order, then the size check (R170; decision
D16). -/
def linkLines (c : Config) (lines : List Line) : Except LinkError (Image c.W) :=
  match resolveAll c (build (associate lines)) (associate lines) with
  | .error e => .error e
  | .ok ws => if h : ws.length ≤ 32 then .ok (imageOf ws h) else .error (.programTooLarge ws.length)

/-- `link(lines)` (R168), for a configuration the model has a meaning for; any other is refused (R5). -/
def link (c : Config) (lines : List Line) : Except LinkError (Image c.W) :=
  if c.valid then linkLines c lines else .error .configurationRefused

/-- Link and load: the machine `new_with_program` makes of the linked image (R171, R196). -/
def linkAndLoad (c : Config) (lines : List Line) : Except LinkError (Engine.State c.W c.F) :=
  (link c lines).map (Engine.newWithProgram c.F)

end Sys2Proof.Assembly
end

