-- ==== Sys2Proof/Machine/View.lean ====
section
/-! DEFINITION. The diagnostic dump (R9, R189) as plain data: the four things it shows. Its layout as text is not in the
spec (N13) and is left out (log entry 10). -/

namespace Sys2Proof.Engine

/-- What the dump shows: accumulator, instruction register, program counter and the full memory grid (R189). -/
structure Dump (W F : Nat) where
  accumulator : BitVec W
  instructionRegister : BitVec F
  programCounter : Addr
  /-- The 32 words in address order. -/
  memory : List (BitVec W)
  deriving DecidableEq, Repr

/-- The dump of a state: "a pure read-only view" that "must reflect current state exactly" (R189). -/
def dump {W F : Nat} (s : State W F) : Dump W F :=
  { accumulator := s.acc, instructionRegister := s.ir, programCounter := s.pc, memory := s.mem.words }

end Sys2Proof.Engine
end

