-- ==== Sys2Proof/Machine/Run.lean ====
section
/-! DEFINITION. The bounded runner `run_bounded` (R104 to R108), the host-side driver of the engine, for every `W` and `F`.
It adds no machine state (R29). -/

namespace Sys2Proof.Engine

/-- The outcome of `run_bounded`, an ordinary two-constructor value (R104, R179). -/
inductive RunOutcome (W F : Nat) where
  /-- A Stop was met, at this address (R176). -/
  | stopped (addr : Addr)
  /-- `max_steps` calls of `step` each answered a state: the state reached and the limit (R177). -/
  | iterationsExceeded (state : State W F) (maxIter : Nat)
  deriving DecidableEq, Repr

/-- The loop of R104 with `fuel` calls of `step` left; `limit` is the `max_steps` the outcome carries (R105). -/
def runFrom {W F : Nat} (limit : Nat) : Nat → State W F → State W F × RunOutcome W F
  | 0, s => (s, .iterationsExceeded s limit)
  | fuel + 1, s =>
    match step s with
    | .state t => runFrom limit fuel t
    -- the final state is the one in which the Stop was met (R107)
    | .stopped a => (s, .stopped a)

/-- `run_bounded(s, max_steps)` (R104); with 0 it makes no step (R106). -/
def runBounded {W F : Nat} (s : State W F) (maxSteps : Nat) : State W F × RunOutcome W F := runFrom maxSteps maxSteps s

/-- The state after exactly `k` transitions, if none of them met a Stop. -/
def afterSteps {W F : Nat} : Nat → State W F → Option (State W F)
  | 0, s => some s
  | k + 1, s =>
    match step s with
    | .state t => afterSteps k t
    | .stopped _ => none

end Sys2Proof.Engine
end

