-- ==== Sys2Proof/Safety.lean ====
section
/-! DEFINITION. What statements call a good state: the fetch invariant of R25 and the canonical form of memory; and which
states are reachable through the interface (R9, R25). -/

namespace Sys2Proof.Engine

/-- `ir = field(mem[pc])`, of one state (R25). -/
abbrev FetchInv {W F : Nat} (s : State W F) : Prop := s.ir = field F (s.mem.read s.pc)

/-- The invariant every step keeps: the fetch invariant, and memory in canonical form. -/
abbrev Inv {W F : Nat} (s : State W F) : Prop := FetchInv s ∧ s.mem.wf = true

/-- The states the host can come by: from `new`, from `new_with_program`, by a `step` that returns a state (R25; the host
builds no other, 92_eei_decisions, assumptions on the host). -/
inductive Reachable {W F : Nat} : State W F → Prop where
  | new : Reachable (Engine.new W F)
  | load (m : Image W) : Reachable (newWithProgram F m)
  | step {s t : State W F} (h : Reachable s) (hs : Engine.step s = .state t) : Reachable t

end Sys2Proof.Engine
end

