-- ==== Sys2Proof/Certificates/Slice0/Obligations.lean ====
section
/-! DEFINITION. The statements for the provers. Those about `Machine.exec` and `Machine.step` are about the reference
instantiation `W = 32, F = 16`; those that quantify over `W` and `F` are about the codec, the engine and the linker at every
width of R4 and R5. Where a docstring names a decision D<n>, that is the spec's own decision (92_eei_decisions). -/

open Sys2Proof Sys2Proof.Machine

/-! ## The codec (30_encoding) -/

/-- A few words written out from the encoding tables decode to the instructions they stand for (vectors DC4 to DC12, DC15,
DC21, DC30 of 95_test_vectors; R64, R66, decisions D1 and D2). -/
def Obligations.KnownWordsDecode : Prop :=
  decode 16 0xFFFF0005#32 = .jump 5 ∧ decode 16 0x00008003#32 = .relativeJump 3 ∧
  decode 16 0x00004011#32 = .negate 17 ∧ decode 16 0x0000C01F#32 = .store 31 ∧
  decode 16 0x00002000#32 = .subtract 0 ∧ decode 16 0x0000A01F#32 = .subtract 31 ∧
  decode 16 0x0000601F#32 = .skipIfNegative ∧ decode 16 0xFFFFFFFB#32 = .stop ∧
  decode 8 0x9F#8 = .relativeJump 31 ∧ decode 32 0x80000005#32 = .relativeJump 5

/-- R66: `decode` at every width, in arithmetic on the word as a number; and the same function on an instruction register,
read as a word with zero upper bits. -/
def Obligations.DecodeReadsOpcodeAndOperand : Prop :=
  ∀ (W F : Nat), 8 ≤ F → F ≤ W →
    (∀ w : BitVec W,
      decode F w =
        if w.toNat / 2 ^ (F - 3) % 8 = 0 then .jump (w.toNat % 32 : Nat)
        else if w.toNat / 2 ^ (F - 3) % 8 = 4 then .relativeJump (w.toNat % 32 : Nat)
        else if w.toNat / 2 ^ (F - 3) % 8 = 2 then .negate (w.toNat % 32 : Nat)
        else if w.toNat / 2 ^ (F - 3) % 8 = 6 then .store (w.toNat % 32 : Nat)
        else if w.toNat / 2 ^ (F - 3) % 8 = 1 then .subtract (w.toNat % 32 : Nat)
        else if w.toNat / 2 ^ (F - 3) % 8 = 5 then .subtract (w.toNat % 32 : Nat)
        else if w.toNat / 2 ^ (F - 3) % 8 = 3 then .skipIfNegative
        else .stop) ∧
    ∀ ir : BitVec F, decode F ir = decode F (ir.setWidth W)

/-- R67: every word decodes to one of the seven run-time variants, with an operand in `0..31`, and only opcode 7 reaches
Stop. -/
def Obligations.DecodeIsTotal : Prop :=
  ∀ (W F : Nat), 8 ≤ F → F ≤ W → ∀ w : BitVec W,
    (decode F w).isRuntime = true ∧ (decode F w).wellFormed W = true ∧
    (decode F w = .stop ↔ w.toNat / 2 ^ (F - 3) % 8 = 7)

/-- R68: the upper bits and the between bits (a, b), bit `F-1` under Subtract (c), and the operand bits under
SkipIfNegative and Stop (d) have no effect on the result; the all-zero word is `Jump(0)`. -/
def Obligations.IgnoredBitsHaveNoEffect : Prop :=
  ∀ (W F : Nat), 8 ≤ F → F ≤ W →
    (∀ w w' : BitVec W,
      (w.toNat / 2 ^ (F - 3) % 8 = w'.toNat / 2 ^ (F - 3) % 8 → w.toNat % 32 = w'.toNat % 32 → decode F w = decode F w') ∧
      (w.toNat / 2 ^ (F - 3) % 4 = 1 → w'.toNat / 2 ^ (F - 3) % 4 = 1 → w.toNat % 32 = w'.toNat % 32 →
        decode F w = decode F w') ∧
      (w.toNat / 2 ^ (F - 3) % 8 = 3 → w'.toNat / 2 ^ (F - 3) % 8 = 3 → decode F w = decode F w') ∧
      (w.toNat / 2 ^ (F - 3) % 8 = 7 → w'.toNat / 2 ^ (F - 3) % 8 = 7 → decode F w = decode F w')) ∧
    decode F 0#W = .jump 0

/-- R65: both Subtract patterns with the same operand decode to the same instruction, `encode` emits only the one fixed
pattern `SUB_ENC`, and the engine steps alike on the two. -/
def Obligations.SubtractPatternsAreOneInstruction : Prop :=
  ∀ (W F : Nat), 8 ≤ F → F ≤ W →
    (∀ n : Addr, decode F (packWord W F 0b001#3 n) = .subtract n.toNat ∧
      decode F (packWord W F 0b101#3 n) = .subtract n.toNat) ∧
    (∀ (e : BitVec 3) (a : Int), (encode W F e (.subtract a)).toNat / 2 ^ (F - 3) % 8 = e.toNat) ∧
    ∀ (s : Engine.State W F) (n : Addr),
      Engine.step { s with ir := packWord F F 0b001#3 n } = Engine.step { s with ir := packWord F F 0b101#3 n }

/-- R69: `get_operand` is the payload modulo 32 for the five address-bearing variants, for every integer (decision D12 for
negative payloads), and 0 for the others. -/
def Obligations.GetOperandMasks : Prop :=
  (∀ a : Int, ((getOperand (.jump a)).toNat : Int) = a % 32 ∧ ((getOperand (.relativeJump a)).toNat : Int) = a % 32 ∧
    ((getOperand (.negate a)).toNat : Int) = a % 32 ∧ ((getOperand (.store a)).toNat : Int) = a % 32 ∧
    ((getOperand (.subtract a)).toNat : Int) = a % 32) ∧
  getOperand .skipIfNegative = 0#5 ∧ getOperand .stop = 0#5 ∧ ∀ v : Int, getOperand (.absoluteValue v) = 0#5

/-- R70 to R72: the opcode stands in `[F-1:F-3]`, the operand modulo 32 in `[4:0]`, every other bit is zero (decisions D4,
D7, D12). -/
def Obligations.EncodePacksFields : Prop :=
  ∀ (W F : Nat), 8 ≤ F → F ≤ W → ∀ (e : BitVec 3) (a : Int),
    ((encode W F e (.jump a)).toNat : Int) = a % 32 ∧
    ((encode W F e (.relativeJump a)).toNat : Int) = 4 * 2 ^ (F - 3) + a % 32 ∧
    ((encode W F e (.negate a)).toNat : Int) = 2 * 2 ^ (F - 3) + a % 32 ∧
    ((encode W F e (.store a)).toNat : Int) = 6 * 2 ^ (F - 3) + a % 32 ∧
    ((encode W F e (.subtract a)).toNat : Int) = e.toNat * 2 ^ (F - 3) + a % 32 ∧
    (encode W F e .skipIfNegative).toNat = 3 * 2 ^ (F - 3) ∧
    (encode W F e .stop).toNat = 7 * 2 ^ (F - 3)

/-- R73: AbsoluteValue encodes as its literal integer: unchanged as an unsigned number when it is not negative, unchanged
as a signed number when it is below `2^(W-1)`; and `decode` never answers an AbsoluteValue. -/
def Obligations.AbsoluteValueEncodesAsLiteral : Prop :=
  ∀ (W F : Nat) (e : BitVec 3), 0 < W →
    (∀ v : Int, valueFits W v = true →
      ((encode W F e (.absoluteValue v)).toNat : Int) = v % 2 ^ W ∧
      (0 ≤ v → ((encode W F e (.absoluteValue v)).toNat : Int) = v) ∧
      (v < 2 ^ (W - 1) → (encode W F e (.absoluteValue v)).toInt = v)) ∧
    ∀ (w : BitVec W) (v : Int), decode F w ≠ .absoluteValue v

/-- R74: decode after encode gives the instruction with its operand reduced modulo 32, and gives a well-formed run-time
instruction back whole: no bit of an encoding is dropped, at every width and for either `SUB_ENC`. -/
def Obligations.DecodeUndoesEncode : Prop :=
  ∀ (W F : Nat), 8 ≤ F → F ≤ W → ∀ e : BitVec 3, e = 0b001#3 ∨ e = 0b101#3 →
    ∀ i : Instr, i.isRuntime = true →
      decode F (encode W F e i) = i.reduce ∧ (i.wellFormed W = true → decode F (encode W F e i) = i)

/-- R75: `encode (decode w) = w` exactly when the upper and the between bits are zero, the opcode is not the Subtract pattern
other than `SUB_ENC`, and the operand bits of opcodes 3 and 7 are zero; and in all cases the canonical word decodes alike. -/
def Obligations.EncodeAfterDecodeIsCanonical : Prop :=
  ∀ (W F : Nat), 8 ≤ F → F ≤ W → ∀ e : BitVec 3, e = 0b001#3 ∨ e = 0b101#3 → ∀ w : BitVec W,
    (encode W F e (decode F w) = w ↔
      w.toNat / 2 ^ F = 0 ∧ w.toNat % 2 ^ (F - 3) / 32 = 0 ∧
      (w.toNat / 2 ^ (F - 3) % 4 = 1 → w.toNat / 2 ^ (F - 3) % 8 = e.toNat) ∧
      (w.toNat / 2 ^ (F - 3) % 4 = 3 → w.toNat % 32 = 0)) ∧
    decode F (encode W F e (decode F w)) = decode F w

/-! ## What each instruction does (41 to 44)

Each `After…` is the new state of one rule's pseudocode at any width, in numbers; each statement then says that `exec`
answers it at the reference widths and the engine's dispatch at every width of R4 and R5. -/

/-- R110: `pc' <- v & 0x1F`, `ir' <- field(mem[pc'])`, `acc` and `mem` unchanged. -/
def Sys2Proof.AfterJump {W F : Nat} (n : Addr) (s t : Engine.State W F) : Prop :=
  t.pc.toNat = (s.mem.read n).toNat % 32 ∧
  t.ir.toNat = (s.mem.read t.pc).toNat % 2 ^ F ∧ t.acc = s.acc ∧ t.mem = s.mem

/-- R112: `pc' <- (pc + sval(v)) mod 32 = (pc + v[4:0]) mod 32`, `ir' <- field(mem[pc'])`, `acc` and `mem` unchanged. -/
def Sys2Proof.AfterRelativeJump {W F : Nat} (n : Addr) (s t : Engine.State W F) : Prop :=
  (t.pc.toNat : Int) = ((s.pc.toNat : Int) + (s.mem.read n).toInt) % 32 ∧
  t.pc.toNat = (s.pc.toNat + (s.mem.read n).toNat % 32) % 32 ∧
  t.ir.toNat = (s.mem.read t.pc).toNat % 2 ^ F ∧ t.acc = s.acc ∧ t.mem = s.mem

/-- R120: `acc' <- word(-sval(v))`, `pc' <- (pc + 1) & 0x1F`, `ir' <- field(mem[pc'])`, `mem` unchanged. -/
def Sys2Proof.AfterNegate {W F : Nat} (n : Addr) (s t : Engine.State W F) : Prop :=
  (t.acc.toNat : Int) = (-(s.mem.read n).toInt) % 2 ^ W ∧
  t.pc.toNat = (s.pc.toNat + 1) % 32 ∧
  t.ir.toNat = (s.mem.read t.pc).toNat % 2 ^ F ∧ t.mem = s.mem

/-- R123: `acc' <- word(sval(acc) - sval(v))`, `pc' <- (pc + 1) & 0x1F`, `ir' <- field(mem[pc'])`, `mem` unchanged. -/
def Sys2Proof.AfterSubtract {W F : Nat} (n : Addr) (s t : Engine.State W F) : Prop :=
  (t.acc.toNat : Int) = (s.acc.toInt - (s.mem.read n).toInt) % 2 ^ W ∧
  t.pc.toNat = (s.pc.toNat + 1) % 32 ∧
  t.ir.toNat = (s.mem.read t.pc).toNat % 2 ^ F ∧ t.mem = s.mem

/-- R135: `mem'[n] <- acc`, every other word unchanged, `pc' <- (pc + 1) & 0x1F`, `ir' <- field(mem'[pc'])` from the memory
after the write, `acc` unchanged. -/
def Sys2Proof.AfterStore {W F : Nat} (n : Addr) (s t : Engine.State W F) : Prop :=
  t.mem.read n = s.acc ∧ (∀ b : Addr, b ≠ n → t.mem.read b = s.mem.read b) ∧
  t.pc.toNat = (s.pc.toNat + 1) % 32 ∧
  t.ir.toNat = (t.mem.read t.pc).toNat % 2 ^ F ∧ t.acc = s.acc

/-- R140: `pc' <- (pc + 2) & 0x1F` if `sval(acc) < 0`, else `(pc + 1) & 0x1F`; `ir' <- field(mem[pc'])`, `acc` and `mem`
unchanged; and the condition is bit `acc[W-1]`. -/
def Sys2Proof.AfterSkipIfNegative {W F : Nat} (s t : Engine.State W F) : Prop :=
  (s.acc.toInt < 0 ↔ s.acc.getLsbD (W - 1) = true) ∧
  (s.acc.toInt < 0 → t.pc.toNat = (s.pc.toNat + 2) % 32) ∧
  (0 ≤ s.acc.toInt → t.pc.toNat = (s.pc.toNat + 1) % 32) ∧
  t.ir.toNat = (s.mem.read t.pc).toNat % 2 ^ F ∧ t.acc = s.acc ∧ t.mem = s.mem

/-- R110, Jump: operand, encoding and the new state, for every payload and state. -/
def Obligations.JumpTakesTargetFromMemory : Prop :=
  ∀ a : Int,
    ((maskAddr a).toNat : Int) = a % 32 ∧
    (encodeReference (.jump a)).toNat = 0x0000 + (maskAddr a).toNat ∧
    decode 16 (BitVec.ofNat 32 (0x0000 + (maskAddr a).toNat)) = .jump (maskAddr a).toNat ∧
    (∀ s : State, ∃ t : State, exec (.jump a) s = .next t ∧ AfterJump (maskAddr a) s t) ∧
    ∀ (W F : Nat), 8 ≤ F → F ≤ W → ∀ s : Engine.State W F,
      ∃ t, Engine.dispatch (.jump a) s = .state t ∧ AfterJump (maskAddr a) s t

/-- R112, RelativeJump: the signed word at `n` is added to the address of the RelativeJump itself. -/
def Obligations.RelativeJumpAddsSignedOffset : Prop :=
  ∀ a : Int,
    ((maskAddr a).toNat : Int) = a % 32 ∧
    (encodeReference (.relativeJump a)).toNat = 0x8000 + (maskAddr a).toNat ∧
    decode 16 (BitVec.ofNat 32 (0x8000 + (maskAddr a).toNat)) = .relativeJump (maskAddr a).toNat ∧
    (∀ s : State, ∃ t : State, exec (.relativeJump a) s = .next t ∧ AfterRelativeJump (maskAddr a) s t) ∧
    ∀ (W F : Nat), 8 ≤ F → F ≤ W → ∀ s : Engine.State W F,
      ∃ t, Engine.dispatch (.relativeJump a) s = .state t ∧ AfterRelativeJump (maskAddr a) s t

/-- R120, Negate: the accumulator becomes the word of the negated signed value; the old accumulator is not read. -/
def Obligations.NegateLoadsNegatedWord : Prop :=
  ∀ a : Int,
    ((maskAddr a).toNat : Int) = a % 32 ∧
    (encodeReference (.negate a)).toNat = 0x4000 + (maskAddr a).toNat ∧
    decode 16 (BitVec.ofNat 32 (0x4000 + (maskAddr a).toNat)) = .negate (maskAddr a).toNat ∧
    (∀ s : State, ∃ t : State, exec (.negate a) s = .next t ∧ AfterNegate (maskAddr a) s t) ∧
    ∀ (W F : Nat), 8 ≤ F → F ≤ W → ∀ s : Engine.State W F,
      ∃ t, Engine.dispatch (.negate a) s = .state t ∧ AfterNegate (maskAddr a) s t

/-- R123, Subtract: the minuend is the accumulator, the subtrahend the memory word; both opcode patterns are this
instruction. -/
def Obligations.SubtractTakesWordFromAccumulator : Prop :=
  ∀ a : Int,
    ((maskAddr a).toNat : Int) = a % 32 ∧
    (encodeReference (.subtract a)).toNat = 0x2000 + (maskAddr a).toNat ∧
    decode 16 (BitVec.ofNat 32 (0x2000 + (maskAddr a).toNat)) = .subtract (maskAddr a).toNat ∧
    decode 16 (BitVec.ofNat 32 (0xA000 + (maskAddr a).toNat)) = .subtract (maskAddr a).toNat ∧
    (∀ s : State, ∃ t : State, exec (.subtract a) s = .next t ∧ AfterSubtract (maskAddr a) s t) ∧
    ∀ (W F : Nat), 8 ≤ F → F ≤ W → ∀ s : Engine.State W F,
      ∃ t, Engine.dispatch (.subtract a) s = .state t ∧ AfterSubtract (maskAddr a) s t

/-- R135, Store: the whole accumulator goes to the word at `n`, every other word stays, and the re-fetch is from the memory
after the write (decision D9). -/
def Obligations.StoreWritesAccumulator : Prop :=
  ∀ a : Int,
    ((maskAddr a).toNat : Int) = a % 32 ∧
    (encodeReference (.store a)).toNat = 0xC000 + (maskAddr a).toNat ∧
    decode 16 (BitVec.ofNat 32 (0xC000 + (maskAddr a).toNat)) = .store (maskAddr a).toNat ∧
    (∀ s : State, ∃ t : State, exec (.store a) s = .next t ∧ AfterStore (maskAddr a) s t) ∧
    ∀ (W F : Nat), 8 ≤ F → F ≤ W → ∀ s : Engine.State W F,
      ∃ t, Engine.dispatch (.store a) s = .state t ∧ AfterStore (maskAddr a) s t

/-- R140, SkipIfNegative: the next instruction is skipped exactly when the accumulator's signed value is negative; every word
with opcode bits 011 is this instruction. -/
def Obligations.SkipIfNegativeTestsAccumulatorSign : Prop :=
  getOperand .skipIfNegative = 0#5 ∧ encodeReference .skipIfNegative = 0x6000#32 ∧
  (∀ w : BitVec 32, w.toNat / 2 ^ 13 % 8 = 3 → decode 16 w = .skipIfNegative) ∧
  (∀ s : State, ∃ t : State, exec .skipIfNegative s = .next t ∧ AfterSkipIfNegative s t) ∧
  ∀ (W F : Nat), 8 ≤ F → F ≤ W → ∀ s : Engine.State W F,
    ∃ t, Engine.dispatch .skipIfNegative s = .state t ∧ AfterSkipIfNegative s t

/-- R143, Stop: the termination signal carries the program counter of the input state and there is no new state; every word
with opcode bits 111 is Stop; stepping the same state again gives the same signal, since a step is a function of the state.
The signal stands in the host's fault case (log entry 3). -/
def Obligations.StopSignalsItsAddress : Prop :=
  getOperand .stop = 0#5 ∧ encodeReference .stop = 0xE000#32 ∧
  (∀ w : BitVec 32, w.toNat / 2 ^ 13 % 8 = 7 → decode 16 w = .stop) ∧
  (∀ s : State, exec .stop s = .fault (.stopped s.pc)) ∧
  (∀ s : State, decode 16 s.ir = .stop → step s = .fault (.stopped s.pc)) ∧
  ∀ (W F : Nat) (s : Engine.State W F), Engine.dispatch .stop s = .stopped s.pc

/-- The model's reading of R150 and R68 (DEDUCED, log entry 4; no step meets it): `exec` of an AbsoluteValue is what the
engine does with its raw word. Unless its bits `[15:13]` are 111 it answers a state, in which every word but the one a
spelled Store names is as before; if they are 111 it signals `Stopped`. -/
def Obligations.AbsoluteValueExecutesAsItsBitsSpell : Prop :=
  ∀ (v : Int) (s : State),
    (v / 2 ^ 13 % 8 ≠ 7 → ∃ t : State, exec (.absoluteValue v) s = .next t ∧
      exec (decode 16 (word 32 v)) s = .next t ∧
      t.ir.toNat = (t.mem.read t.pc).toNat % 2 ^ 16 ∧
      (v / 2 ^ 13 % 8 ≠ 6 → t.mem = s.mem) ∧
      (∀ b : Addr, b ≠ maskAddr v → t.mem.read b = s.mem.read b) ∧
      (v / 2 ^ 13 % 4 ≠ 1 → v / 2 ^ 13 % 8 ≠ 2 → t.acc = s.acc)) ∧
    (v / 2 ^ 13 % 8 = 7 → exec (.absoluteValue v) s = .fault (.stopped s.pc))

/-- R98: what a step never changes, instruction by instruction and for a whole step. -/
def Obligations.StepChangesNothingElse : Prop :=
  (∀ (a : Int) (s t : State), exec (.jump a) s = .next t ∨ exec (.relativeJump a) s = .next t ∨
      exec .skipIfNegative s = .next t → t.acc = s.acc ∧ ∀ b : Addr, t.mem.read b = s.mem.read b) ∧
  (∀ (a : Int) (s t : State), exec (.negate a) s = .next t ∨ exec (.subtract a) s = .next t →
      ∀ b : Addr, t.mem.read b = s.mem.read b) ∧
  (∀ (a : Int) (s t : State), exec (.store a) s = .next t →
      t.acc = s.acc ∧ ∀ b : Addr, b ≠ maskAddr a → t.mem.read b = s.mem.read b) ∧
  (∀ s t : State, exec .stop s ≠ .next t) ∧
  (∀ s t : State, step s = .next t → ∀ b : Addr, b ≠ getOperand (decode 16 s.ir) → t.mem.read b = s.mem.read b) ∧
  ∀ (W F : Nat) (s t : Engine.State W F), Engine.step s = .state t →
    ∀ b : Addr, b ≠ getOperand (decode F s.ir) → t.mem.read b = s.mem.read b

/-! ## Consequences the instruction rules name -/

/-- R127: negation and subtraction wrap modulo `2^W` and nothing else happens: exact when the exact result fits, off by
`2^W` when it does not; the most negative word is its own negation (decisions D5, D6). -/
def Obligations.ArithmeticWraps : Prop :=
  ∀ (W : Nat), 0 < W → ∀ acc v : BitVec W,
    ((Engine.difference acc v).toNat : Int) = (acc.toInt - v.toInt) % 2 ^ W ∧
    (-2 ^ (W - 1) ≤ acc.toInt - v.toInt → acc.toInt - v.toInt < 2 ^ (W - 1) →
      (Engine.difference acc v).toInt = acc.toInt - v.toInt) ∧
    (2 ^ (W - 1) ≤ acc.toInt - v.toInt → (Engine.difference acc v).toInt = acc.toInt - v.toInt - 2 ^ W) ∧
    (acc.toInt - v.toInt < -2 ^ (W - 1) → (Engine.difference acc v).toInt = acc.toInt - v.toInt + 2 ^ W) ∧
    (v.toInt ≠ -2 ^ (W - 1) → (Engine.negated v).toInt = -v.toInt) ∧
    (v.toInt = -2 ^ (W - 1) → Engine.negated v = v)

/-- R128: negation is complement plus one and undoes itself; subtraction is the same on signed and unsigned readings; and
subtracting `v` and then the negated `v` restores the accumulator (decisions D5, D6). -/
def Obligations.ArithmeticFacts : Prop :=
  ∀ (W : Nat) (acc v : BitVec W),
    Engine.negated v = ~~~v + 1#W ∧ ((Engine.negated v).toNat : Int) = (2 ^ W - (v.toNat : Int)) % 2 ^ W ∧
    Engine.negated (Engine.negated v) = v ∧
    ((Engine.difference acc v).toNat : Int) = ((acc.toNat : Int) - (v.toNat : Int)) % 2 ^ W ∧
    Engine.difference (Engine.difference acc v) (Engine.negated v) = acc

/-- R94: only bits `[4:0]` of the operand value influence a relative jump, and the sum may as well be formed in `W`-bit
wrapping arithmetic. -/
def Obligations.OnlyLowBitsReachTheProgramCounter : Prop :=
  ∀ (W : Nat), 5 ≤ W → ∀ (pc : Addr) (v : BitVec W),
    Engine.pcPlus pc v.toInt = Engine.pcPlus pc (v.toNat % 32 : Nat) ∧
    Engine.pcPlus pc v.toInt = low5 (pc.setWidth W + v)

/-- R110 corner case (c) and R112 corner case (c): a transfer to itself on a state with `ir = field(mem[pc])` changes
nothing, so the machine loops for ever (R99). -/
def Obligations.JumpToItselfChangesNothing : Prop :=
  ∀ (a : Int) (s : State), Engine.FetchInv s →
    ((s.mem.read (maskAddr a)).toNat % 32 = s.pc.toNat → exec (.jump a) s = .next s) ∧
    ((s.mem.read (maskAddr a)).toInt % 32 = 0 → exec (.relativeJump a) s = .next s)

/-- R52 and R135 corner cases (a), (b), at every width: a Store into the next word is what is fetched, and a Store over its
own word does not touch the step it is made in (decision D9). -/
def Obligations.StoredWordIsFetched : Prop :=
  ∀ (W F : Nat) (a : Int) (s : Engine.State W F), ∃ t, Engine.dispatch (.store a) s = .state t ∧
    (((s.pc.toNat : Int) + 1) % 32 = a % 32 → t.ir.toNat = s.acc.toNat % 2 ^ F) ∧
    ((s.pc.toNat : Int) = a % 32 → t.mem.read s.pc = s.acc ∧ t.ir.toNat = (s.mem.read t.pc).toNat % 2 ^ F)

/-! ## The step (40_execution_cycle, 60_exceptions) -/

/-- R91: a step executes `decode(ir)`; where `ir` holds the field of the word at `pc` that is the instruction stored there,
which is always a well-formed run-time instruction. -/
def Obligations.StepRunsDecodedInstruction : Prop :=
  (∀ s : State, step s = exec (decode 16 s.ir) s) ∧
  ∀ (s : State) (i : Instr), Engine.FetchInv s → decode 16 (s.mem.read s.pc) = i →
    i.isRuntime = true ∧ i.wellFormed 32 = true ∧ step s = exec i s

/-- The machine under the host's names is the engine of R90 at the reference widths (log entry 1), the engine's two-way
result standing in the host's type (log entry 3). -/
def Obligations.ReferenceStepIsEngineStep : Prop := ∀ s : State, step s = hostOutcome (Engine.step s)

/-- R90 and R93: one whole step of the engine at every width, in arithmetic on `ir` as a number: Stop signals the program
counter, every other opcode answers the state whose four pieces are those of the transition table (decisions D5, D6, D9). -/
def Obligations.EngineFollowsTransitionTable : Prop :=
  ∀ (W F : Nat), 8 ≤ F → F ≤ W → ∀ (s : Engine.State W F) (op : Nat) (n : Addr) (v : BitVec W),
    op = s.ir.toNat / 2 ^ (F - 3) → n.toNat = s.ir.toNat % 32 → v = s.mem.read n →
    (op = 7 → Engine.step s = .stopped s.pc) ∧
    (op ≠ 7 → ∃ t, Engine.step s = .state t ∧
      (t.acc.toNat : Int) = (if op = 2 then (-v.toInt) % 2 ^ W
        else if op % 4 = 1 then (s.acc.toInt - v.toInt) % 2 ^ W else s.acc.toNat) ∧
      (t.pc.toNat : Int) = (if op = 0 then (v.toNat : Int)
        else if op = 4 then (s.pc.toNat : Int) + v.toInt
        else if op = 3 then (s.pc.toNat : Int) + (if s.acc.toInt < 0 then 2 else 1)
        else (s.pc.toNat : Int) + 1) % 32 ∧
      (∀ b : Addr, t.mem.read b = if op = 6 ∧ b = n then s.acc else s.mem.read b) ∧
      t.ir.toNat = (t.mem.read t.pc).toNat % 2 ^ F)

/-- R97: `step` is total and has two outcomes only, at every width and in every state, reachable or not: a new state, or
`Stopped`. -/
def Obligations.StepNeverGetsStuck : Prop :=
  (∀ (W F : Nat) (s : Engine.State W F), (∃ t, Engine.step s = .state t) ∨ Engine.step s = .stopped s.pc) ∧
  ∀ s : State, (∃ t, step s = .next t) ∨ step s = .fault (.stopped s.pc)

/-- No meaning refuses, and none ends but by `Stopped` at its own program counter. For an AbsoluteValue that is the model's
choice (log entry 4). -/
def Obligations.NoMeaningRefuses : Prop :=
  ∀ (i : Instr) (s : State), (∀ r : Refusal, exec i s ≠ .refused r) ∧ ∀ f : Fault, exec i s = .fault f → f = .stopped s.pc

/-- R96 and R176: `Stopped(addr)` arises exactly when `ir` decodes to Stop, carries the program counter, and is passed on
by `run_bounded`: its outcome is `Stopped(a)` exactly when one of its calls of `step` answers `Stopped(a)`. -/
def Obligations.StoppedExactlyAtStop : Prop :=
  (∀ (W F : Nat) (s : Engine.State W F) (a : Addr),
    Engine.step s = .stopped a ↔ decode F s.ir = .stop ∧ a = s.pc) ∧
  (∀ (s : State) (a : Addr), step s = .fault (.stopped a) ↔ decode 16 s.ir = .stop ∧ a = s.pc) ∧
  ∀ (W F : Nat) (s : Engine.State W F) (m : Nat) (a : Addr),
    (Engine.runBounded s m).2 = .stopped a ↔
      ∃ j t, j < m ∧ Engine.afterSteps j s = some t ∧ Engine.step t = .stopped a

/-- The invariant of the machine: `ir = field(mem[pc])` (R25) and memory in canonical form (the model's own, log entry 2).
Every step keeps it, and the first half holds after any step, whatever the state was. -/
def Obligations.EveryStepKeepsInvariant : Prop :=
  (∀ s t : State, Engine.Inv s → step s = .next t → Engine.Inv t) ∧
  ∀ s t : State, step s = .next t → Engine.FetchInv t

/-- Right after reset `ir = field(mem[pc])` holds (R195, R25), and memory is in canonical form, which is the model's own and
no rule of the spec (DESIGN CHOICE, log entry 2). -/
def Obligations.ResetMeetsInvariant : Prop := Engine.Inv State.reset

/-- R25: in every state produced by `new()`, by `new_with_program(m)` or by a step that returns a state,
`ir = field(mem[pc])`; consequently, which the spec marks as its own inference from R25 and R91, decoding `ir` and decoding
`mem[pc]` agree on every reachable state. -/
def Obligations.ReachableStatesAreFetched : Prop :=
  ∀ (W F : Nat),
    Engine.FetchInv (Engine.new W F) ∧ (∀ m : Image W, Engine.FetchInv (Engine.newWithProgram F m)) ∧
    (∀ s t : Engine.State W F, Engine.step s = .state t → Engine.FetchInv t) ∧
    ∀ s : Engine.State W F, Engine.Reachable s →
      Engine.FetchInv s ∧ (8 ≤ F → F ≤ W → decode F s.ir = decode F (s.mem.read s.pc))

/-- R30: two states with memory in canonical form are equal exactly when the 32 words pairwise, `acc`, `pc` and `ir` are
equal; and every reachable memory is in canonical form (log entry 2). -/
def Obligations.StatesEqualByComponents : Prop :=
  ∀ (W F : Nat) (s t : Engine.State W F),
    (Engine.Reachable s → s.mem.wf = true) ∧
    (s.mem.wf = true → t.mem.wf = true →
      (s = t ↔ (∀ a : Addr, s.mem.read a = t.mem.read a) ∧ s.acc = t.acc ∧ s.pc = t.pc ∧ s.ir = t.ir))

/-- R49: every read returns the value of the most recent Store to that address in the sequence of steps so far, or the
value the starting state gave it if there was none. -/
def Obligations.ReadReturnsMostRecentStore : Prop :=
  ∀ (W F : Nat) (s t : Engine.State W F) (k : Nat) (b : Addr), Engine.afterSteps k s = some t →
    ((∀ j u a, j < k → Engine.afterSteps j s = some u → decode F u.ir = .store a → maskAddr a ≠ b) →
      t.mem.read b = s.mem.read b) ∧
    ∀ j u a, j < k → Engine.afterSteps j s = some u → decode F u.ir = .store a → maskAddr a = b →
      (∀ j' u' a', j < j' → j' < k → Engine.afterSteps j' s = some u' → decode F u'.ir = .store a' → maskAddr a' ≠ b) →
      t.mem.read b = u.acc

/-! ## run_bounded -/

/-- R104 and R105: the outcome is `Stopped(a)` exactly when one of the first `max_steps` calls meets a Stop, with the state
that met it as the final state (decision D10 for that state), and `IterationsExceeded` exactly when `max_steps` calls all
return states, carrying the state after exactly `max_steps` transitions and the limit. -/
def Obligations.RunBoundedCountsCalls : Prop :=
  ∀ (W F : Nat) (s t : Engine.State W F) (m : Nat),
    (∀ a : Addr, Engine.runBounded s m = (t, .stopped a) ↔
      ∃ j, j < m ∧ Engine.afterSteps j s = some t ∧ Engine.step t = .stopped a) ∧
    ∀ (u : Engine.State W F) (k : Nat), Engine.runBounded s m = (t, .iterationsExceeded u k) ↔
      Engine.afterSteps m s = some t ∧ u = t ∧ k = m

/-- R107 (decision D10, log entry 15): the final state of a stopped run is the one in which the Stop was met, with a Stop in
`ir` and the program counter the signal carries. -/
def Obligations.StoppedRunEndsAtItsStop : Prop :=
  ∀ (W F : Nat) (s t : Engine.State W F) (m : Nat) (a : Addr), Engine.runBounded s m = (t, .stopped a) →
    Engine.step t = .stopped a ∧ decode F t.ir = .stop ∧ a = t.pc

/-- R106: a limit of zero makes no call of `step` (decision D11). -/
def Obligations.RunBoundedZeroMakesNoStep : Prop :=
  ∀ (W F : Nat) (s : Engine.State W F), Engine.runBounded s 0 = (s, .iterationsExceeded s 0)

/-- R108: a run cut at `m1` and continued for `m2` is the run of `m1 + m2`, but for the limit an exceeded outcome carries. -/
def Obligations.RunBoundedComposes : Prop :=
  ∀ (W F : Nat) (s s1 t : Engine.State W F) (m1 m2 : Nat),
    Engine.runBounded s m1 = (s1, .iterationsExceeded s1 m1) →
    (∀ a : Addr, Engine.runBounded s (m1 + m2) = (t, .stopped a) ↔ Engine.runBounded s1 m2 = (t, .stopped a)) ∧
    (Engine.runBounded s (m1 + m2) = (t, .iterationsExceeded t (m1 + m2)) ↔
      Engine.runBounded s1 m2 = (t, .iterationsExceeded t m2))

/-! ## Reset, load and the dump (70, 60) -/

/-- R195: `new()` is all zero, holds the fetch invariant, and running it never stops: every step returns the same state. -/
def Obligations.NewIsAllZeroAndNeverStops : Prop :=
  (∀ (W F : Nat), 8 ≤ F → F ≤ W →
    (∀ a : Addr, (Engine.new W F).mem.read a = 0#W) ∧ (Engine.new W F).acc = 0#W ∧ (Engine.new W F).pc = 0#5 ∧
    (Engine.new W F).ir = 0#F ∧ Engine.FetchInv (Engine.new W F) ∧
    Engine.step (Engine.new W F) = .state (Engine.new W F) ∧
    ∀ k : Nat, Engine.runBounded (Engine.new W F) k = (Engine.new W F, .iterationsExceeded (Engine.new W F) k)) ∧
  State.reset = Engine.new 32 16 ∧ step State.reset = .next State.reset

/-- R196: `new_with_program(m)` holds the image word for word, `pc = 0`, `ir = field(m[0])`, and a zero accumulator
(decision D8); `ir = field(mem[pc])` holds (R25), and memory is in canonical form, which is the model's own and no rule of
the spec (DESIGN CHOICE, log entry 2). -/
def Obligations.LoadHoldsTheImage : Prop :=
  ∀ (W F : Nat) (m : Image W),
    (∀ a : Addr, (Engine.newWithProgram F m).mem.read a = m[a.toNat]'(a.isLt)) ∧
    (Engine.newWithProgram F m).pc = 0#5 ∧ (Engine.newWithProgram F m).ir.toNat = m[0].toNat % 2 ^ F ∧
    (Engine.newWithProgram F m).acc = 0#W ∧ Engine.Inv (Engine.newWithProgram F m)

/-- R198: execution begins with the instruction at address 0, and the program counter is not advanced before it. -/
def Obligations.ExecutionBeginsAtAddressZero : Prop :=
  ∀ (W F : Nat), 8 ≤ F → F ≤ W → ∀ m : Image W,
    (Engine.newWithProgram F m).pc = 0#5 ∧ (Engine.newWithProgram F m).ir = field F m[0] ∧
    Engine.step (Engine.newWithProgram F m) = Engine.dispatch (decode F m[0]) (Engine.newWithProgram F m)

/-- R189: the dump reflects the state exactly: it lists the 32 words in address order, and two states with memory in
canonical form (log entry 2) have one dump only if they are one state. -/
def Obligations.DumpReflectsStateExactly : Prop :=
  ∀ (W F : Nat) (s t : Engine.State W F),
    (Engine.dump s).memory.length = 32 ∧
    (∀ a : Addr, (Engine.dump s).memory[a.toNat]? = some (s.mem.read a)) ∧
    (Engine.dump s).accumulator = s.acc ∧ (Engine.dump s).programCounter = s.pc ∧
    (Engine.dump s).instructionRegister = s.ir ∧
    (s.mem.wf = true → t.mem.wf = true → Engine.dump s = Engine.dump t → s = t)

/-- R5 and R6: only `8 <= F <= W` with `SUB_ENC` in `001, 101` has a meaning (decisions D2, D4, D20), and every operation
of a configuration is refused outside: the two that make a machine, `decode`, `encode`, linking, and linking and loading.
Inside, `decode` answers for every word, and `encode` exactly for an instruction whose data value, if it has one, fits a
word (R151, decision D14; that the total `encode` has a value for a misfit is the model's choice, log entry 18). The error
of a refused link is the model's (log entry 9). -/
def Obligations.ConfigurationsOutsideBoundsAreRefused : Prop :=
  ∀ c : Config,
    (c.newMachine.isSome = true ↔ 8 ≤ c.F ∧ c.F ≤ c.W ∧ (c.subEnc.toNat = 1 ∨ c.subEnc.toNat = 5)) ∧
    (∀ m : Image c.W, (c.loadMachine m).isSome = c.newMachine.isSome) ∧
    (∀ w : BitVec c.W, (c.decodeWord w).isSome = c.newMachine.isSome ∧
      ∀ i : Instr, c.decodeWord w = some i → i = decode c.F w) ∧
    (∀ (i : Instr) (w : BitVec c.W), c.encodeWord i = some w ↔
      c.newMachine.isSome = true ∧ (∀ v : Int, i = .absoluteValue v → -2 ^ (c.W - 1) ≤ v ∧ v < 2 ^ c.W) ∧
        w = encode c.W c.F c.subEnc i) ∧
    ∀ lines : List Assembly.Line,
      (Assembly.link c lines = .error .configurationRefused ↔ c.newMachine = none) ∧
      (Assembly.linkAndLoad c lines = .error .configurationRefused ↔ c.newMachine = none)

/-! ## The assembly level (45_assembly) -/

/-- R156: each real line is paired with the tag of the record immediately before it, if that record is a tag, and with no
tag otherwise; tags followed by another tag or by the end bind nothing. -/
def Obligations.NearestTagBindsNextRealLine : Prop :=
  (∀ (pre post : List Assembly.Line) (r : Assembly.RealLine),
    Assembly.associate (pre ++ .real r :: post) =
      Assembly.associate pre ++
        ((match pre.getLast? with | some (.tag name) => some name | some (.real _) => none | none => none), r) ::
        Assembly.associate post) ∧
  ∀ names : List String, Assembly.associate (names.map .tag) = []

/-- R160 and R162: the symbol table maps a tag to the position of the pair that carries it, and of several under one name
the later occurrence wins (decision D15). -/
def Obligations.SymbolTableHoldsLastPosition : Prop :=
  ∀ (pairs : List (Option String × Assembly.RealLine)) (name : String),
    (∀ k : Nat, Assembly.SymbolTable.find name (Assembly.build pairs) = some k ↔
      (∃ r, pairs[k]? = some (some name, r)) ∧ ∀ (j : Nat) (r : Assembly.RealLine), k < j → pairs[j]? ≠ some (some name, r)) ∧
    (Assembly.SymbolTable.find name (Assembly.build pairs) = none ↔
      ∀ (j : Nat) (r : Assembly.RealLine), pairs[j]? ≠ some (some name, r))

/-- R163: a literal passes through; a tag reference is the tag's position, or fails with the tag's name. -/
def Obligations.ValueExpressionsResolve : Prop :=
  ∀ (table : Assembly.SymbolTable),
    (∀ z : Int, Assembly.resolveValue table (.literal z) = .ok z) ∧
    ∀ name : String,
      (∀ k : Nat, table.find name = some k → Assembly.resolveValue table (.tagReference name) = .ok (k : Int)) ∧
      (table.find name = none → Assembly.resolveValue table (.tagReference name) = .error (.unknownTagName name))

/-- R166: the word of an instruction line has the resolved operand modulo 32 in its operand field under the instruction's
opcode, a literal operand outside `0..31` wrapping; an operand that does not resolve fails the line; and the operand-less
lines are the words of R71. -/
def Obligations.InstructionLinesEncode : Prop :=
  ∀ (c : Config), c.valid = true → ∀ (table : Assembly.SymbolTable),
    (∀ (e : Assembly.ValueExpr) (z : Int), Assembly.resolveValue table e = .ok z →
      Assembly.resolveLine c table (.jump e) = .ok (encode c.W c.F c.subEnc (.jump z)) ∧
      Assembly.resolveLine c table (.relativeJump e) = .ok (encode c.W c.F c.subEnc (.relativeJump z)) ∧
      Assembly.resolveLine c table (.negate e) = .ok (encode c.W c.F c.subEnc (.negate z)) ∧
      Assembly.resolveLine c table (.store e) = .ok (encode c.W c.F c.subEnc (.store z)) ∧
      Assembly.resolveLine c table (.subtract e) = .ok (encode c.W c.F c.subEnc (.subtract z)) ∧
      ∀ i ∈ [Instr.jump z, .relativeJump z, .negate z, .store z, .subtract z],
        ((encode c.W c.F c.subEnc i).toNat : Int) % 32 = z % 32) ∧
    (∀ (e : Assembly.ValueExpr) (x : Assembly.LinkError), Assembly.resolveValue table e = .error x →
      ∀ r ∈ [Assembly.RealLine.jump e, .relativeJump e, .negate e, .store e, .subtract e],
        Assembly.resolveLine c table r = .error x) ∧
    Assembly.resolveLine c table .skipIfNegative = .ok (BitVec.ofNat c.W (3 * 2 ^ (c.F - 3))) ∧
    Assembly.resolveLine c table .stop = .ok (BitVec.ofNat c.W (7 * 2 ^ (c.F - 3)))

/-- R165 and R151: a data line is its resolved value as a word, not instruction-packed, and is refused exactly when the
value is outside `-2^(W-1) .. 2^W - 1` (decision D14; the error's name is the model's, log entry 7). -/
def Obligations.DataLinesPlaceRawWords : Prop :=
  ∀ (c : Config), 0 < c.W → ∀ (table : Assembly.SymbolTable) (e : Assembly.ValueExpr) (z : Int),
    Assembly.resolveValue table e = .ok z →
    (-2 ^ (c.W - 1) ≤ z → z < 2 ^ c.W →
      ∃ w, Assembly.resolveLine c table (.data e) = .ok w ∧ (w.toNat : Int) = z % 2 ^ c.W) ∧
    (z < -2 ^ (c.W - 1) ∨ 2 ^ c.W ≤ z → Assembly.resolveLine c table (.data e) = .error (.valueDoesNotFit z))

/-- R168, R171 and R196: linking succeeds exactly when the configuration is inside the bounds of R5 and R6, there are at most
32 real lines and every one resolves; the image then holds the resolved words in order, and zero in every position beyond
them; and the image is what the machine is loaded with. -/
def Obligations.LinkBuildsTheImage : Prop :=
  ∀ (c : Config) (lines : List Assembly.Line) (image : Image c.W),
    (Assembly.link c lines = .ok image → Assembly.linkAndLoad c lines = .ok (Engine.newWithProgram c.F image)) ∧
    (Assembly.link c lines = .ok image ↔
      c.valid = true ∧ (Assembly.associate lines).length ≤ 32 ∧
      ∀ (k : Nat) (hk : k < 32),
        (∀ p, (Assembly.associate lines)[k]? = some p →
          Assembly.resolveLine c (Assembly.build (Assembly.associate lines)) p.2 = .ok image[k]) ∧
        ((Assembly.associate lines).length ≤ k → image[k] = 0#c.W))

/-- R169 and R170: linking, for a configuration inside the bounds of R5 and R6, fails with the error of the first line that
does not resolve, in line order; only if every line resolves, and there are more than 32, does it fail with
`ProgramTooLarge` carrying their number (decision D16). Outside the bounds it is refused before anything else (log entry
9). -/
def Obligations.LinkFailsFast : Prop :=
  ∀ (c : Config) (lines : List Assembly.Line) (x : Assembly.LinkError),
    Assembly.link c lines = .error x ↔
      (c.valid = false ∧ x = .configurationRefused) ∨
      (c.valid = true ∧
        ((∃ (k : Nat) (p : Option String × Assembly.RealLine), (Assembly.associate lines)[k]? = some p ∧
          Assembly.resolveLine c (Assembly.build (Assembly.associate lines)) p.2 = .error x ∧
          ∀ (j : Nat) (q : Option String × Assembly.RealLine), j < k → (Assembly.associate lines)[j]? = some q →
            ∃ w, Assembly.resolveLine c (Assembly.build (Assembly.associate lines)) q.2 = .ok w) ∨
        ((∀ p ∈ Assembly.associate lines,
            ∃ w, Assembly.resolveLine c (Assembly.build (Assembly.associate lines)) p.2 = .ok w) ∧
          32 < (Assembly.associate lines).length ∧ x = .programTooLarge (Assembly.associate lines).length)))
end

