-- ==== Sys2Proof/Laws/Assembly.lean ====
section
/-! SUPPORT. What a configuration lets through: the bounds of R5 and R6 as numbers, an encodable instruction, and linking on
either side of the bounds. -/

namespace Sys2Proof

/-- The bounds of R5 and R6. -/
theorem Config.valid_iff (c : Config) :
    c.valid = true ↔ 8 ≤ c.F ∧ c.F ≤ c.W ∧ (c.subEnc = 0b001#3 ∨ c.subEnc = 0b101#3) := by
  simp [Config.valid, and_assoc]

/-- An instruction has a word unless it is a data value that does not fit one (R151). -/
theorem Instr.encodable_iff (W : Nat) (i : Instr) :
    i.encodable W = true ↔ ∀ v : Int, i = .absoluteValue v → -2 ^ (W - 1) ≤ v ∧ v < 2 ^ W := by
  cases i <;> simp [Instr.encodable, valueFits]

namespace Assembly

/-- Inside the bounds `link` is the linker of R168. -/
@[simp] theorem link_of_valid {c : Config} (h : c.valid = true) (lines : List Line) : link c lines = linkLines c lines :=
  if_pos h

/-- Outside the bounds `link` is refused, whatever the lines are (R5). -/
@[simp] theorem link_of_refused {c : Config} (h : c.valid = false) (lines : List Line) :
    link c lines = .error .configurationRefused := by
  simp [link, h]

end Assembly

end Sys2Proof
end

