-- ==== Sys2Proof/Laws/Codec.lean ====
section
/-! SUPPORT. The bit fields of the codec as arithmetic on naturals and integers: what each helper of Decode.lean is, said
once, so that proofs about encodings are arithmetic. -/

namespace Sys2Proof

variable {W : Nat}

theorem low5_toNat (w : BitVec W) : (low5 w).toNat = w.toNat % 32 := by
  simp [low5, BitVec.extractLsb'_toNat]

theorem field_toNat (F : Nat) (w : BitVec W) : (field F w).toNat = w.toNat % 2 ^ F := by
  simp [field, BitVec.extractLsb'_toNat]

theorem opcodeBits_toNat (F : Nat) (w : BitVec W) : (opcodeBits F w).toNat = w.toNat / 2 ^ (F - 3) % 8 := by
  simp [opcodeBits, BitVec.extractLsb'_toNat, Nat.shiftRight_eq_div_pow]

theorem word_toNat (z : Int) : ((word W z).toNat : Int) = z % (2 : Int) ^ W := by
  have h := BitVec.toNat_ofInt (n := W) z
  have hp : (0 : Int) ≤ z % ((2 ^ W : Nat) : Int) := Int.emod_nonneg _ (by positivity)
  unfold word
  rw [h, Int.toNat_of_nonneg hp]
  push_cast
  rfl

theorem maskAddr_toNat (z : Int) : ((maskAddr z).toNat : Int) = z % 32 := word_toNat (W := 5) z

/-- An address is its own masked value. -/
@[simp] theorem maskAddr_of_addr (n : Addr) : maskAddr (n.toNat : Int) = n := by
  apply BitVec.eq_of_toNat_eq
  have h := maskAddr_toNat (n.toNat : Int)
  have := n.isLt
  omega

/-- Masking looks at an integer modulo 32 only. -/
theorem maskAddr_congr {y z : Int} (h : y % 32 = z % 32) : maskAddr y = maskAddr z := by
  apply BitVec.eq_of_toNat_eq
  have hy := maskAddr_toNat y
  have hz := maskAddr_toNat z
  omega

/-- `2^F` is `8 * 2^(F-3)` and `2^(F-3)` is a multiple of 32, for the field widths of R5. -/
theorem fieldWidth_pow {F : Nat} (hF : 8 ≤ F) : 2 ^ F = 8 * 2 ^ (F - 3) ∧ 2 ^ (F - 3) = 32 * 2 ^ (F - 8) := by
  obtain ⟨k, rfl⟩ : ∃ k, F = k + 8 := ⟨F - 8, by omega⟩
  constructor
  · rw [show k + 8 - 3 = k + 5 by omega]; ring
  · rw [show k + 8 - 3 = k + 5 by omega, show k + 8 - 8 = k by omega]; ring

theorem packWord_toNat {F : Nat} (hF : 8 ≤ F) (hFW : F ≤ W) (op : BitVec 3) (n : Addr) :
    (packWord W F op n).toNat = op.toNat * 2 ^ (F - 3) + n.toNat := by
  obtain ⟨h1, h2⟩ := fieldWidth_pow hF
  have hW : 2 ^ F ≤ 2 ^ W := Nat.pow_le_pow_right (by omega) hFW
  have hpos : 0 < 2 ^ (F - 8) := by positivity
  have ho := op.isLt
  have hn := n.isLt
  unfold packWord
  rw [BitVec.toNat_ofNat, Nat.mod_eq_of_lt]
  have : op.toNat * 2 ^ (F - 3) ≤ 7 * 2 ^ (F - 3) := Nat.mul_le_mul_right _ (by omega)
  omega

theorem low5_packWord {F : Nat} (hF : 8 ≤ F) (hFW : F ≤ W) (op : BitVec 3) (n : Addr) :
    low5 (packWord W F op n) = n := by
  apply BitVec.eq_of_toNat_eq
  rw [low5_toNat, packWord_toNat hF hFW, (fieldWidth_pow hF).2]
  have hn := n.isLt
  rw [show op.toNat * (32 * 2 ^ (F - 8)) = 32 * (op.toNat * 2 ^ (F - 8)) by ring, Nat.mul_add_mod]
  exact Nat.mod_eq_of_lt hn

theorem opcodeBits_packWord {F : Nat} (hF : 8 ≤ F) (hFW : F ≤ W) (op : BitVec 3) (n : Addr) :
    opcodeBits F (packWord W F op n) = op := by
  apply BitVec.eq_of_toNat_eq
  rw [opcodeBits_toNat, packWord_toNat hF hFW]
  have hpos : 0 < 2 ^ (F - 8) := by positivity
  have h2 := (fieldWidth_pow hF).2
  have hn : n.toNat < 2 ^ (F - 3) := by have := n.isLt; omega
  have ho := op.isLt
  rw [Nat.mul_comm, Nat.mul_add_div (by omega), Nat.div_eq_of_lt hn, Nat.add_zero]
  exact Nat.mod_eq_of_lt ho

/-- `decode` looks at the opcode and the operand bits and at nothing else (R66, R68). -/
theorem decode_congr {W' F F' : Nat} {w : BitVec W} {w' : BitVec W'} (ho : opcodeBits F w = opcodeBits F' w')
    (hn : low5 w = low5 w') : decode F w = decode F' w' := by
  unfold decode
  rw [ho, hn]

/-- What a packed word decodes to, by its opcode alone (R64). -/
theorem decode_packWord {F : Nat} (hF : 8 ≤ F) (hFW : F ≤ W) (op : BitVec 3) (n : Addr) :
    decode F (packWord W F op n) =
      if op = 0#3 then .jump n.toNat else if op = 4#3 then .relativeJump n.toNat else if op = 2#3 then .negate n.toNat
      else if op = 6#3 then .store n.toNat else if op = 1#3 ∨ op = 5#3 then .subtract n.toNat
      else if op = 3#3 then .skipIfNegative else .stop := by
  have hop : ∀ o : BitVec 3, o = 0 ∨ o = 1 ∨ o = 2 ∨ o = 3 ∨ o = 4 ∨ o = 5 ∨ o = 6 ∨ o = 7 := by decide
  unfold decode
  rw [opcodeBits_packWord hF hFW, low5_packWord hF hFW]
  rcases hop op with h | h | h | h | h | h | h | h <;> subst h <;> rfl

/-- The seven things a word can decode to, the operand being its low five bits (R66). -/
theorem decode_cases (F : Nat) (w : BitVec W) :
    decode F w = .jump (low5 w).toNat ∨ decode F w = .relativeJump (low5 w).toNat ∨
    decode F w = .negate (low5 w).toNat ∨ decode F w = .store (low5 w).toNat ∨
    decode F w = .subtract (low5 w).toNat ∨ decode F w = .skipIfNegative ∨ decode F w = .stop := by
  unfold decode
  split <;> simp

/-- The instruction field of a word decodes as the word does: why a step may decode `ir` (R24, R91). -/
theorem decode_field {F : Nat} (hF : 8 ≤ F) (w : BitVec W) : decode F (field F w) = decode F w := by
  obtain ⟨h1, h2⟩ := fieldWidth_pow hF
  apply decode_congr
  · apply BitVec.eq_of_toNat_eq
    rw [opcodeBits_toNat, opcodeBits_toNat, field_toNat, h1, Nat.mul_comm 8, Nat.mod_mul_right_div_self]
    exact Nat.mod_mod _ _
  · apply BitVec.eq_of_toNat_eq
    rw [low5_toNat, low5_toNat, field_toNat, h1, h2]
    exact Nat.mod_mod_of_dvd _ ⟨8 * 2 ^ (F - 8), by ring⟩

end Sys2Proof
end

