-- ==== Sys2Proof/Laws/Memory.lean ====
section
/-! SUPPORT. Memory: a read after a write, and every memory operation keeps the canonical form. -/

namespace Sys2Proof

variable {W : Nat}

@[simp] theorem Memory.read_nil (a : Addr) : Memory.read ([] : Memory W) a = 0#W := rfl

theorem Memory.cellAt_erase_of_ne {j k : Nat} (h : j ≠ k) (m : List (Nat × BitVec W)) :
    Memory.cellAt j (Memory.erase k m) = Memory.cellAt j m := by
  induction m with
  | nil => rfl
  | cons c rest ih =>
    obtain ⟨b, w⟩ := c
    by_cases hb : b = k
    · have : b ≠ j := fun e => h (e ▸ hb)
      simpa [Memory.erase, hb, Memory.cellAt, hb ▸ this] using ih
    · have ih' : Memory.cellAt j (List.filter (fun c => c.1 != k) rest) = Memory.cellAt j rest := ih
      simp [Memory.erase, hb, Memory.cellAt, ih']

theorem Memory.cellAt_erase_same (k : Nat) (m : List (Nat × BitVec W)) :
    Memory.cellAt k (Memory.erase k m) = 0#W := by
  induction m with
  | nil => rfl
  | cons c rest ih =>
    obtain ⟨b, w⟩ := c
    have ih' : Memory.cellAt k (List.filter (fun c => c.1 != k) rest) = 0#W := ih
    by_cases hb : b = k
    · simpa [Memory.erase, hb] using ih'
    · simp [Memory.erase, hb, Memory.cellAt, ih']

theorem Memory.cellAt_insertCell_of_ne {j k : Nat} (h : j ≠ k) (v : BitVec W) (m : List (Nat × BitVec W)) :
    Memory.cellAt j (Memory.insertCell k v m) = Memory.cellAt j m := by
  induction m with
  | nil => simp [Memory.insertCell, Memory.cellAt, Ne.symm h]
  | cons c rest ih =>
    obtain ⟨b, w⟩ := c
    unfold Memory.insertCell
    split
    · simp [Memory.cellAt, Ne.symm h]
    · simp [Memory.cellAt, ih]

theorem Memory.cellAt_insertCell_same {k : Nat} (v : BitVec W) (m : List (Nat × BitVec W))
    (h : ∀ c ∈ m, c.1 ≠ k) : Memory.cellAt k (Memory.insertCell k v m) = v := by
  induction m with
  | nil => simp [Memory.insertCell, Memory.cellAt]
  | cons c rest ih =>
    obtain ⟨b, w⟩ := c
    unfold Memory.insertCell
    split
    · simp [Memory.cellAt]
    · have hb : b ≠ k := h (b, w) (by simp)
      simp [Memory.cellAt, hb, ih (fun c hc => h c (by simp [hc]))]

theorem Memory.erase_no_cell (k : Nat) (m : List (Nat × BitVec W)) : ∀ c ∈ Memory.erase k m, c.1 ≠ k := by
  intro c hc
  simpa using (List.mem_filter.mp hc).2

/-- A read of the word just written gives the value written, in every memory. -/
@[simp] theorem Memory.read_write_same (m : Memory W) (a : Addr) (v : BitVec W) : (m.write a v).read a = v := by
  unfold Memory.write Memory.read
  split
  · next h => rw [Memory.cellAt_erase_same, h]
  · exact Memory.cellAt_insertCell_same v _ (Memory.erase_no_cell _ m)

/-- A write leaves every other word alone, in every memory. -/
theorem Memory.read_write_of_ne (m : Memory W) {a b : Addr} (v : BitVec W) (h : b ≠ a) :
    (m.write a v).read b = m.read b := by
  have hn : b.toNat ≠ a.toNat := fun e => h (BitVec.eq_of_toNat_eq e)
  unfold Memory.write Memory.read
  split
  · exact Memory.cellAt_erase_of_ne hn m
  · rw [Memory.cellAt_insertCell_of_ne hn, Memory.cellAt_erase_of_ne hn]

/-- The two together: what a write does to any word. -/
theorem Memory.read_write (m : Memory W) (a b : Addr) (v : BitVec W) :
    (m.write a v).read b = if b = a then v else m.read b := by
  split
  · next h => rw [h, Memory.read_write_same]
  · next h => exact Memory.read_write_of_ne m v h

theorem Memory.wfFrom_mono {lo lo' : Nat} (h : lo' ≤ lo) (m : List (Nat × BitVec W)) (hm : Memory.wfFrom lo m = true) :
    Memory.wfFrom lo' m = true := by
  cases m with
  | nil => rfl
  | cons c rest =>
    obtain ⟨b, w⟩ := c
    simp only [Memory.wfFrom, Bool.and_eq_true, decide_eq_true_eq] at hm ⊢
    exact ⟨⟨⟨by omega, hm.1.1.2⟩, hm.1.2⟩, hm.2⟩

theorem Memory.erase_wfFrom {lo : Nat} (k : Nat) (m : List (Nat × BitVec W)) (hm : Memory.wfFrom lo m = true) :
    Memory.wfFrom lo (Memory.erase k m) = true := by
  induction m generalizing lo with
  | nil => rfl
  | cons c rest ih =>
    obtain ⟨b, w⟩ := c
    simp only [Memory.wfFrom, Bool.and_eq_true, decide_eq_true_eq] at hm
    have ih' := ih hm.2
    by_cases hb : b = k
    · have e : Memory.erase k ((b, w) :: rest) = Memory.erase k rest := by simp [Memory.erase, hb]
      rw [e]
      exact Memory.wfFrom_mono (by omega) _ ih'
    · have e : Memory.erase k ((b, w) :: rest) = (b, w) :: Memory.erase k rest := by simp [Memory.erase, hb]
      rw [e]
      simp only [Memory.wfFrom, Bool.and_eq_true, decide_eq_true_eq]
      exact ⟨hm.1, ih'⟩

theorem Memory.insertCell_wfFrom {lo k : Nat} {v : BitVec W} (m : List (Nat × BitVec W)) (hm : Memory.wfFrom lo m = true)
    (hlo : lo ≤ k) (hk : k < 32) (hv : v ≠ 0#W) (h : ∀ c ∈ m, c.1 ≠ k) :
    Memory.wfFrom lo (Memory.insertCell k v m) = true := by
  induction m generalizing lo with
  | nil => simp [Memory.insertCell, Memory.wfFrom, hlo, hk, hv]
  | cons c rest ih =>
    obtain ⟨b, w⟩ := c
    simp only [Memory.wfFrom, Bool.and_eq_true, decide_eq_true_eq] at hm
    have hb : b ≠ k := h (b, w) (by simp)
    unfold Memory.insertCell
    split
    · simp only [Memory.wfFrom, Bool.and_eq_true, decide_eq_true_eq]
      exact ⟨⟨⟨hlo, hk⟩, hv⟩, ⟨⟨by omega, hm.1.1.2⟩, hm.1.2⟩, hm.2⟩
    · simp only [Memory.wfFrom, Bool.and_eq_true, decide_eq_true_eq]
      exact ⟨hm.1, ih hm.2 (by omega) (fun c hc => h c (by simp [hc]))⟩

/-- A write keeps the canonical form. -/
theorem Memory.write_wf (m : Memory W) (a : Addr) (v : BitVec W) (hm : m.wf = true) : (m.write a v).wf = true := by
  unfold Memory.write Memory.wf
  split
  · exact Memory.erase_wfFrom _ m hm
  · next h =>
    exact Memory.insertCell_wfFrom _ (Memory.erase_wfFrom _ m hm) (Nat.zero_le _) a.isLt h (Memory.erase_no_cell _ m)

theorem Memory.cellsFrom_wfFrom (k : Nat) (l : List (BitVec W)) (h : k + l.length ≤ 32) :
    Memory.wfFrom k (Memory.cellsFrom k l) = true := by
  induction l generalizing k with
  | nil => rfl
  | cons w rest ih =>
    have ih' := ih (k + 1) (by simp at h; omega)
    unfold Memory.cellsFrom
    split
    · exact Memory.wfFrom_mono (by omega) _ ih'
    · next hw =>
      simp only [Memory.wfFrom, Bool.and_eq_true, decide_eq_true_eq]
      exact ⟨⟨⟨Nat.le_refl k, by simp at h; omega⟩, hw⟩, ih'⟩

theorem Memory.cellAt_cellsFrom_lt {j k : Nat} (l : List (BitVec W)) (h : j < k) :
    Memory.cellAt j (Memory.cellsFrom k l) = 0#W := by
  induction l generalizing k with
  | nil => rfl
  | cons w rest ih =>
    unfold Memory.cellsFrom
    split
    · exact ih (by omega)
    · have hk : k ≠ j := by omega
      simp [Memory.cellAt, hk, ih (by omega : j < k + 1)]

theorem Memory.cellAt_cellsFrom (k i : Nat) (l : List (BitVec W)) :
    Memory.cellAt (k + i) (Memory.cellsFrom k l) = l.getD i 0#W := by
  induction l generalizing k i with
  | nil => simp [Memory.cellsFrom, Memory.cellAt]
  | cons w rest ih =>
    unfold Memory.cellsFrom
    cases i with
    | zero =>
      split
      · next hw => simpa [hw] using Memory.cellAt_cellsFrom_lt rest (by omega : k + 0 < k + 1)
      · simp [Memory.cellAt]
    | succ i =>
      have e := ih (k + 1) i
      rw [show k + 1 + i = k + (i + 1) by omega] at e
      split
      · simpa using e
      · simpa [Memory.cellAt] using e

/-- A loaded image is read back word for word (R196). -/
theorem Memory.read_ofImage (m : Image W) (a : Addr) : (Memory.ofImage m).read a = m[a.toNat]'(a.isLt) := by
  have h := Memory.cellAt_cellsFrom 0 a.toNat m.toList
  rw [Nat.zero_add] at h
  unfold Memory.read Memory.ofImage
  rw [h]
  have hl : a.toNat < m.toList.length := by simpa using a.isLt
  rw [List.getD_eq_getElem _ _ hl]
  simp

/-- A loaded image is in canonical form. -/
theorem Memory.ofImage_wf (m : Image W) : (Memory.ofImage m).wf = true :=
  Memory.cellsFrom_wfFrom 0 m.toList (by simp)

@[simp] theorem Memory.nil_wf : Memory.wf ([] : Memory W) = true := rfl

/-- No cell of a canonical list stands below where it starts. -/
theorem Memory.cellAt_below {lo k : Nat} (m : List (Nat × BitVec W)) (hm : Memory.wfFrom lo m = true) (hk : k < lo) :
    Memory.cellAt k m = 0#W := by
  induction m generalizing lo with
  | nil => rfl
  | cons c rest ih =>
    obtain ⟨b, w⟩ := c
    simp only [Memory.wfFrom, Bool.and_eq_true, decide_eq_true_eq] at hm
    have hb : b ≠ k := by omega
    simp only [Memory.cellAt, hb, if_false]
    exact ih hm.2 (by omega)

theorem Memory.eq_of_cellAt {lo : Nat} (m n : List (Nat × BitVec W)) (hm : Memory.wfFrom lo m = true)
    (hn : Memory.wfFrom lo n = true) (h : ∀ k < 32, Memory.cellAt k m = Memory.cellAt k n) : m = n := by
  induction m generalizing lo n with
  | nil =>
    cases n with
    | nil => rfl
    | cons c rest =>
      obtain ⟨b, w⟩ := c
      simp only [Memory.wfFrom, Bool.and_eq_true, decide_eq_true_eq] at hn
      have hz := h b hn.1.1.2
      simp only [Memory.cellAt, if_true] at hz
      exact absurd hz.symm hn.1.2
  | cons c rest ih =>
    obtain ⟨b, w⟩ := c
    cases n with
    | nil =>
      simp only [Memory.wfFrom, Bool.and_eq_true, decide_eq_true_eq] at hm
      have hz := h b hm.1.1.2
      simp only [Memory.cellAt, if_true] at hz
      exact absurd hz hm.1.2
    | cons d tail =>
      obtain ⟨e, x⟩ := d
      simp only [Memory.wfFrom, Bool.and_eq_true, decide_eq_true_eq] at hm hn
      -- the two first cells stand at one address: the lower one would read 0 on the other side
      have hbe : b = e := by
        rcases Nat.lt_trichotomy b e with hlt | he | hlt
        · have hz := h b hm.1.1.2
          simp only [Memory.cellAt, if_true, show e ≠ b by omega, if_false] at hz
          rw [Memory.cellAt_below tail hn.2 (by omega)] at hz
          exact absurd hz hm.1.2
        · exact he
        · have hz := h e hn.1.1.2
          simp only [Memory.cellAt, if_true, show b ≠ e by omega, if_false] at hz
          rw [Memory.cellAt_below rest hm.2 (by omega)] at hz
          exact absurd hz.symm hn.1.2
      subst hbe
      have hwx : w = x := by simpa [Memory.cellAt] using h b hm.1.1.2
      subst hwx
      rw [ih tail hm.2 hn.2 fun k hk => ?_]
      by_cases hkb : b = k
      · subst hkb
        rw [Memory.cellAt_below rest hm.2 (by omega), Memory.cellAt_below tail hn.2 (by omega)]
      · simpa [Memory.cellAt, hkb] using h k hk

/-- Two canonical memories with the same 32 words are the same list. -/
theorem Memory.eq_of_read (m n : Memory W) (hm : m.wf = true) (hn : n.wf = true) (h : ∀ a, m.read a = n.read a) : m = n :=
  Memory.eq_of_cellAt m n hm hn fun k hk => by
    simpa [Memory.read, Nat.mod_eq_of_lt hk] using h (BitVec.ofNat 5 k)

/-- The memory right after reset is in canonical form. -/
theorem Machine.State.reset_mem_wf : Memory.wf Machine.State.reset.mem = true := rfl

/-- Placing the next instruction keeps the canonical form. -/
theorem Engine.placeNext_wf {F : Nat} (s : Engine.State W F) (w : BitVec W) (h : s.mem.wf = true) :
    (s.placeNext w).mem.wf = true := Memory.write_wf _ _ _ h

end Sys2Proof
end

