-- ==== Sys2Proof/Laws/State.lean ====
section
/-! SUPPORT. One lemma per field per update of the state, so that no later proof unfolds a record update. -/

namespace Sys2Proof.Engine

variable {W F : Nat} (s : State W F)

@[simp] theorem withAcc_mem (v : BitVec W) : (s.withAcc v).mem = s.mem := rfl
@[simp] theorem withAcc_acc (v : BitVec W) : (s.withAcc v).acc = v := rfl
@[simp] theorem withAcc_pc (v : BitVec W) : (s.withAcc v).pc = s.pc := rfl
@[simp] theorem withAcc_ir (v : BitVec W) : (s.withAcc v).ir = s.ir := rfl

@[simp] theorem withWord_mem (n : Addr) (v : BitVec W) : (s.withWord n v).mem = s.mem.write n v := rfl
@[simp] theorem withWord_acc (n : Addr) (v : BitVec W) : (s.withWord n v).acc = s.acc := rfl
@[simp] theorem withWord_pc (n : Addr) (v : BitVec W) : (s.withWord n v).pc = s.pc := rfl
@[simp] theorem withWord_ir (n : Addr) (v : BitVec W) : (s.withWord n v).ir = s.ir := rfl

@[simp] theorem continueAt_mem (t : Addr) : (s.continueAt t).mem = s.mem := rfl
@[simp] theorem continueAt_acc (t : Addr) : (s.continueAt t).acc = s.acc := rfl
@[simp] theorem continueAt_pc (t : Addr) : (s.continueAt t).pc = t := rfl
@[simp] theorem continueAt_ir (t : Addr) : (s.continueAt t).ir = field F (s.mem.read t) := rfl

@[simp] theorem placeNext_mem (w : BitVec W) : (s.placeNext w).mem = s.mem.write s.pc w := rfl
@[simp] theorem placeNext_acc (w : BitVec W) : (s.placeNext w).acc = s.acc := rfl
@[simp] theorem placeNext_pc (w : BitVec W) : (s.placeNext w).pc = s.pc := rfl
@[simp] theorem placeNext_ir (w : BitVec W) : (s.placeNext w).ir = field F w := rfl

@[simp] theorem new_mem : (new W F).mem = [] := rfl
@[simp] theorem new_acc : (new W F).acc = 0#W := rfl
@[simp] theorem new_pc : (new W F).pc = 0#5 := rfl
@[simp] theorem new_ir : (new W F).ir = 0#F := rfl

@[simp] theorem newWithProgram_mem (m : Image W) : (newWithProgram F m).mem = Memory.ofImage m := rfl
@[simp] theorem newWithProgram_acc (m : Image W) : (newWithProgram F m).acc = 0#W := rfl
@[simp] theorem newWithProgram_pc (m : Image W) : (newWithProgram F m).pc = 0#5 := rfl
@[simp] theorem newWithProgram_ir (m : Image W) : (newWithProgram F m).ir = field F m[0] := rfl

/-- Two states with the same four fields are one state. -/
theorem state_ext {s t : State W F} (hm : s.mem = t.mem) (ha : s.acc = t.acc) (hp : s.pc = t.pc) (hi : s.ir = t.ir) :
    s = t := by
  cases s; cases t; simp_all

end Sys2Proof.Engine
end

