-- ==== Sys2Proof/Laws/Ops.lean ====
section
/-! SUPPORT. One lemma for each shared operation of the meanings that says once what it gives. -/

namespace Sys2Proof.Engine

variable {W F : Nat}

/-- `(pc + z) & 0x1F` as a number in `0..31` (R94). -/
theorem pcPlus_toNat (pc : Addr) (z : Int) : ((pcPlus pc z).toNat : Int) = ((pc.toNat : Int) + z) % 32 :=
  maskAddr_toNat _

/-- The sign test is the top bit (R140: `acc[W-1] = 1`). -/
theorem isNegative_eq_msb (w : BitVec W) : isNegative w = w.msb := by
  rw [BitVec.msb_eq_toInt]
  rfl

/-- Negation as the bit-vector operation. -/
theorem negated_eq_neg (v : BitVec W) : negated v = -v := by
  unfold negated word sval
  rw [BitVec.ofInt_neg, BitVec.ofInt_toInt]

/-- Subtraction as the bit-vector operation. -/
theorem difference_eq_sub (acc v : BitVec W) : difference acc v = acc - v := by
  apply BitVec.eq_of_toInt_eq
  unfold difference word sval
  rw [BitVec.toInt_ofInt, BitVec.toInt_sub]

/-- After `continueAt` the fetch invariant of R25 holds, whatever the state was. -/
theorem continueAt_fetched (s : State W F) (t : Addr) :
    (s.continueAt t).ir = field F ((s.continueAt t).mem.read (s.continueAt t).pc) := rfl

/-- Placing the next instruction leaves every other word alone. -/
theorem placeNext_read (s : State W F) (w : BitVec W) (b : Addr) :
    (s.placeNext w).mem.read b = if b = s.pc then w else s.mem.read b := Memory.read_write _ _ _ _

/-- The termination signal carries the program counter (R96). -/
theorem signalStopped_eq (s : State W F) : signalStopped s = .stopped s.pc := rfl

/-- The host sees a next state exactly where the engine answers that state. -/
@[simp] theorem hostOutcome_next {r : Result W F} {t : State W F} :
    Machine.hostOutcome r = .next t ↔ r = .state t := by
  cases r <;> simp [Machine.hostOutcome]

/-- The host sees a fault exactly where the engine signals `Stopped`. -/
@[simp] theorem hostOutcome_fault {r : Result W F} {f : Machine.Fault} :
    Machine.hostOutcome r = .fault f ↔ ∃ a, r = .stopped a ∧ f = .stopped a := by
  cases r <;> simp [Machine.hostOutcome, eq_comm]

/-- The host never sees a refusal. -/
@[simp] theorem hostOutcome_refused {r : Result W F} {e : Machine.Refusal} : Machine.hostOutcome r ≠ .refused e := by
  cases r <;> simp [Machine.hostOutcome]

end Sys2Proof.Engine
end

