-- ==== Sys2Proof/Laws/PerInstr.lean ====
section
/-! SUPPORT. Statements made per instruction. `EncodeMasks`: `encode` packs the masked operand, so an instruction and its
reduction modulo 32 have one word (R69, R70, R72), at every width and for either `SUB_ENC`. -/

namespace Sys2Proof.Laws.EncodeMasks

/-- Masking the operand first changes no bit of the word. -/
def Statement (i : Instr) : Prop :=
  ∀ (W F : Nat) (subEnc : BitVec 3), encode W F subEnc i.reduce = encode W F subEnc i

theorem jump (a : Int) : Statement (.jump a) := fun W F e => by simp [encode, Instr.reduce, getOperand]
theorem relativeJump (a : Int) : Statement (.relativeJump a) := fun W F e => by simp [encode, Instr.reduce, getOperand]
theorem negate (a : Int) : Statement (.negate a) := fun W F e => by simp [encode, Instr.reduce, getOperand]
theorem store (a : Int) : Statement (.store a) := fun W F e => by simp [encode, Instr.reduce, getOperand]
theorem subtract (a : Int) : Statement (.subtract a) := fun W F e => by simp [encode, Instr.reduce, getOperand]
theorem skipIfNegative : Statement .skipIfNegative := fun _ _ _ => rfl
theorem stop : Statement .stop := fun _ _ _ => rfl
theorem absoluteValue (v : Int) : Statement (.absoluteValue v) := fun _ _ _ => rfl

end Sys2Proof.Laws.EncodeMasks
end

