-- ==== Sys2Proof/Laws/Run.lean ====
section
/-! SUPPORT. Counting transitions: a run of `m + n` transitions is one of `m` followed by one of `n`. -/

namespace Sys2Proof.Engine

variable {W F : Nat}

@[simp] theorem afterSteps_zero (s : State W F) : afterSteps 0 s = some s := rfl

/-- One transition more, at the front. -/
theorem afterSteps_succ_state {s t : State W F} (h : step s = .state t) (k : Nat) : afterSteps (k + 1) s = afterSteps k t := by
  simp [afterSteps, h]

theorem afterSteps_add (m n : Nat) (s : State W F) : afterSteps (m + n) s = (afterSteps m s).bind (afterSteps n) := by
  induction m generalizing s with
  | zero => simp
  | succ m ih =>
    rw [show m + 1 + n = (m + n) + 1 by omega]
    simp only [afterSteps]
    split
    · exact ih _
    · rfl

end Sys2Proof.Engine
end

