-- ==== Sys2Proof/Laws/Step.lean ====
section
/-! SUPPORT. What a dispatch can do, said once: every answer is the termination signal of a Stop, or the input state with
one update (none, the accumulator, or one word) continued at a new program counter (R93, R98). -/

namespace Sys2Proof.Engine

variable {W F : Nat}

/-- The update a run-time variant makes before the re-fetch (the accumulator' and memory' columns of R93). -/
def updated (i : Instr) (s : State W F) : State W F :=
  match i with
  | .negate a => s.withAcc (negated (operandValue s a))
  | .subtract a => s.withAcc (difference s.acc (operandValue s a))
  | .store a => s.withWord (maskAddr a) s.acc
  | .jump _ | .relativeJump _ | .skipIfNegative | .stop | .absoluteValue _ => s

/-- The new program counter of a run-time variant (the program_counter' column of R93). -/
def nextPc (i : Instr) (s : State W F) : Addr :=
  match i with
  | .jump a => low5 (operandValue s a)
  | .relativeJump a => pcPlus s.pc (sval (operandValue s a))
  | .skipIfNegative => pcPlus s.pc (if isNegative s.acc then 2 else 1)
  | .negate _ | .subtract _ | .store _ => pcPlus s.pc 1
  | .stop | .absoluteValue _ => s.pc

/-- Everything a dispatch can do; what it says of an AbsoluteValue is the model's choice (log entry 20). -/
theorem dispatch_eq (i : Instr) (s : State W F) :
    dispatch i s =
      if i.isRuntime && i != .stop then .state ((updated i s).continueAt (nextPc i s)) else .stopped s.pc := by
  cases i <;> rfl

/-- A dispatch that answers a state is a run-time variant other than Stop, and the state is the update continued. -/
theorem dispatch_state {i : Instr} {s t : State W F} (h : dispatch i s = .state t) :
    i.isRuntime = true ∧ i ≠ .stop ∧ t = (updated i s).continueAt (nextPc i s) := by
  rw [dispatch_eq] at h
  split at h
  · next hi =>
    rw [Bool.and_eq_true, bne_iff_ne] at hi
    exact ⟨hi.1, hi.2, (Result.state.inj h).symm⟩
  · cases h

/-- An update keeps memory canonical. -/
theorem updated_wf (i : Instr) (s : State W F) (h : s.mem.wf = true) : (updated i s).mem.wf = true := by
  cases i
  case store a => exact Memory.write_wf _ _ _ h
  all_goals exact h

/-- Placing an instruction of the table keeps everything the step does not need (the host's probe). -/
theorem withFetchWord_ir (s : Machine.State) (nbits w : Nat) :
    (s.withFetchWord nbits w).ir = field 16 (tableWord nbits w) := rfl

/-- A step after `withFetchWord` executes exactly what the decoder reads from the word. -/
theorem step_withFetchWord (s : Machine.State) (nbits w : Nat) :
    Machine.step (s.withFetchWord nbits w) = Machine.exec (decode 16 (tableWord nbits w)) (s.withFetchWord nbits w) := by
  unfold Machine.step
  rw [withFetchWord_ir, decode_field (by omega)]

end Sys2Proof.Engine
end

