-- ==== Sys2Proof/Tests/Slice0.lean ====
section
/-! SUPPORT. Tests on fixed values, with their source in spec/ (vector names are those of 95_test_vectors), and for every
statement of Obligations.lean that has hypotheses a named witness that meets them, at boundary values. -/

namespace Sys2Proof.Tests

open Sys2Proof.Machine

/-! ## Helpers -/

/-- A state of the reference instantiation. -/
def st (mem : Memory 32) (acc : BitVec 32) (pc : Addr) (ir : BitVec 16) : State := { mem, acc, pc, ir }

/-- A state of the 8-bit machine `W = F = 8`. -/
def st8 (mem : Memory 8) (acc : BitVec 8) (pc : Addr) (ir : BitVec 8) : Engine.State 8 8 := { mem, acc, pc, ir }

/-- The registers of the new state, if there is one. -/
def regs {W F : Nat} : Host.Outcome (Engine.State W F) Fault Refusal → Option (BitVec W × Addr × BitVec F)
  | .next t => some (t.acc, t.pc, t.ir)
  | .fault _ => none
  | .refused _ => none

/-- One word of the new state, if there is one. -/
def wordAt {W F : Nat} (a : Addr) : Host.Outcome (Engine.State W F) Fault Refusal → Option (BitVec W)
  | .next t => some (t.mem.read a)
  | .fault _ => none
  | .refused _ => none

/-- The address of the termination signal, if the answer is one. -/
def stopAt {W F : Nat} : Host.Outcome (Engine.State W F) Fault Refusal → Option Addr
  | .fault (.stopped a) => some a
  | .next _ => none
  | .refused _ => none

/-! ## WellFormed: an ill-formed term for each check -/

theorem test_wf_jump : (Instr.jump 32).wellFormed 32 = false ∧ (Instr.jump (-1)).wellFormed 32 = false := by decide
theorem test_wf_relativeJump : (Instr.relativeJump 32).wellFormed 32 = false := by decide
theorem test_wf_negate : (Instr.negate 32).wellFormed 32 = false := by decide
theorem test_wf_store : (Instr.store (-1)).wellFormed 32 = false := by decide
theorem test_wf_subtract : (Instr.subtract 33).wellFormed 32 = false := by decide
theorem test_wf_value_high : (Instr.absoluteValue 256).wellFormed 8 = false := by decide
theorem test_wf_value_low : (Instr.absoluteValue (-129)).wellFormed 8 = false := by decide
theorem test_wf_accepts : (Instr.jump 31).wellFormed 32 = true ∧ (Instr.absoluteValue 255).wellFormed 8 = true ∧
    (Instr.absoluteValue (-128)).wellFormed 8 = true ∧ Instr.stop.wellFormed 8 = true ∧
    Instr.skipIfNegative.wellFormed 8 = true := by decide
theorem test_isRuntime : (Instr.absoluteValue 0).isRuntime = false ∧ Instr.stop.isRuntime = true := by decide
/-- R5 and R6: F below 8, F above W, and a SUB_ENC that is no Subtract pattern are refused. -/
theorem test_config_refused : Config.valid ⟨32, 7, 1#3⟩ = false ∧ Config.valid ⟨15, 16, 1#3⟩ = false ∧
    Config.valid ⟨32, 16, 2#3⟩ = false ∧ Config.valid ⟨8, 8, 5#3⟩ = true ∧ Config.reference.valid = true := by decide

/-! ## Decoding: every constructor decode answers, the word written out from R61 and R64 -/

/-- Opcode 000, between bits set (DC3), upper bits set (DC4). -/
theorem test_decode_jump : decode 16 0b00000000000000000001111111111111#32 = .jump 31 ∧
    decode 16 0b11111111111111110000000000000101#32 = .jump 5 := by decide
/-- Opcode 100 (DC5). -/
theorem test_decode_relativeJump : decode 16 0b00000000000000001000000000000011#32 = .relativeJump 3 := by decide
/-- Opcode 010 (DC6, DC19). -/
theorem test_decode_negate : decode 16 0b00000000000000000100000000010001#32 = .negate 17 ∧
    decode 16 0b00010010001101000101011001111000#32 = .negate 24 := by decide
/-- Opcode 110 (DC7). -/
theorem test_decode_store : decode 16 0b00000000000000001100000000011111#32 = .store 31 := by decide
/-- Opcodes 001 (DC11) and 101 (DC10). -/
theorem test_decode_subtract : decode 16 0b00000000000000000011111111100101#32 = .subtract 5 ∧
    decode 16 0b00000000000000001011111111100101#32 = .subtract 5 := by decide
/-- Opcode 011 (DC12). -/
theorem test_decode_skipIfNegative : decode 16 0b00000000000000000110000000011111#32 = .skipIfNegative := by decide
/-- Opcode 111 (DC13, DC17). -/
theorem test_decode_stop : decode 16 0b00000000000000001110000000000000#32 = .stop ∧
    decode 16 0b01111111111111111111111111111111#32 = .stop := by decide
/-- Other widths (DC21, DC25, DC28; DC30, DC32, DC34). -/
theorem test_decode_widths : decode 8 0x9F#8 = .relativeJump 31 ∧ decode 8 0xBF#8 = .subtract 31 ∧
    decode 8 0xFB#8 = .stop ∧ decode 32 0x80000005#32 = .relativeJump 5 ∧ decode 32 0x00004005#32 = .jump 5 ∧
    decode 32 0x3FFFFFE5#32 = .subtract 5 := by decide

/-! ## Encoding (E1 to E14, GO1 to GO11) -/

theorem test_encode_reference : encodeReference (.jump 33) = 0x00000001#32 ∧ encodeReference (.relativeJump 5) = 0x8005#32 ∧
    encodeReference (.negate 5) = 0x4005#32 ∧ encodeReference (.store 38) = 0xC006#32 ∧
    encodeReference (.subtract (-1)) = 0x201F#32 ∧ encodeReference .skipIfNegative = 0x6000#32 ∧
    encodeReference .stop = 0xE000#32 := by decide
theorem test_encode_value : encodeReference (.absoluteValue (-5)) = 0xFFFFFFFB#32 ∧
    encode 16 16 1#3 (.absoluteValue 57344) = 0xE000#16 := by decide
theorem test_encode_widths : encode 8 8 1#3 (.subtract 5) = 0x25#8 ∧ encode 8 8 5#3 (.subtract 5) = 0xA5#8 ∧
    encode 32 32 5#3 (.subtract (-1)) = 0xA000001F#32 ∧ encode 8 8 1#3 (.store 31) = 0xDF#8 := by decide
/-- E14 and R151: at W = 8 the value 57344 has no word; the last values that have one do. -/
theorem test_encodeWord_refuses_misfit : Config.encodeWord ⟨8, 8, 1#3⟩ (.absoluteValue 57344) = none ∧
    Config.encodeWord ⟨8, 8, 1#3⟩ (.absoluteValue 255) = some 0xFF#8 ∧
    Config.encodeWord ⟨8, 8, 1#3⟩ (.absoluteValue (-129)) = none ∧
    Config.encodeWord ⟨8, 8, 1#3⟩ (.jump 57344) = some 0#8 := by decide
theorem test_getOperand : getOperand (.jump 33) = 1#5 ∧ getOperand (.store 1000) = 8#5 ∧
    getOperand (.negate (-33)) = 31#5 ∧ getOperand (.absoluteValue 12345) = 0#5 := by decide

/-! ## Single steps (2.3 of 95_test_vectors) -/

/-- J1: the target word is -1, its low five bits 31. -/
theorem test_jump_low_bits : regs (step (st [(20, 0xFFFFFFFF#32), (31, 0xE000#32)] 0x55#32 3#5 0x0014#16)) =
    some (0x55#32, 31#5, 0xE000#16) := by decide
/-- J2: nothing is added after the jump. -/
theorem test_jump_adds_nothing : regs (step (st [(5, 0x6000#32), (20, 0x4025#32)] 0x55#32 3#5 0x0014#16)) =
    some (0x55#32, 5#5, 0x6000#16) := by decide
/-- S3 and RJ1: 2 + 30 wraps to 0. -/
theorem test_relativeJump_wraps : regs (step (st [(2, 2#32), (30, 30#32)] 0#32 2#5 0x801E#16)) =
    some (0#32, 0#5, 0#16) := by decide
/-- RJ2: offset -1 from 0. -/
theorem test_relativeJump_backwards : regs (step (st [(20, 0xFFFFFFFF#32), (31, 0x2001#32)] 0#32 0#5 0x8014#16)) =
    some (0#32, 31#5, 0x2001#16) := by decide
/-- NG2: the most negative word, and the program counter wraps. -/
theorem test_negate_min : regs (step (st [(9, 0x80000000#32)] 1#32 31#5 0x4009#16)) =
    some (0x80000000#32, 0#5, 0#16) := by decide
/-- NG3: an instruction that negates its own word. -/
theorem test_negate_own_word : regs (step (st [(3, 0x4003#32)] 1#32 3#5 0x4003#16)) =
    some (0xFFFFBFFD#32, 4#5, 0#16) := by decide
/-- SB2: the difference wraps. -/
theorem test_subtract_wraps : regs (step (st [(9, 0xFFFFFFFF#32)] 0x7FFFFFFF#32 4#5 0x2009#16)) =
    some (0x80000000#32, 5#5, 0#16) := by decide
/-- SB3: the alias opcode. -/
theorem test_subtract_alias : regs (step (st [(9, 1#32)] 0x80000000#32 4#5 0xA009#16)) =
    some (0x7FFFFFFF#32, 5#5, 0#16) := by decide
/-- ST2: the word stored at `pc + 1` is the one fetched. -/
theorem test_store_next_word : regs (step (st [(4, 0x1111#32)] 0xE000#32 3#5 0xC004#16)) =
    some (0xE000#32, 4#5, 0xE000#16) := by decide
/-- ST6: all 32 bits stored, `ir` keeps the low 16. -/
theorem test_store_whole_word : wordAt 3#5 (step (st [] 0xFFFF1234#32 2#5 0xC003#16)) = some 0xFFFF1234#32 ∧
    regs (step (st [] 0xFFFF1234#32 2#5 0xC003#16)) = some (0xFFFF1234#32, 3#5, 0x1234#16) := by decide
/-- SK1 and SK4: zero and the largest positive word are not negative. -/
theorem test_skip_not_taken : regs (step (st [] 0#32 4#5 0x601F#16)) = some (0#32, 5#5, 0#16) ∧
    regs (step (st [] 0x7FFFFFFF#32 31#5 0x601F#16)) = some (0x7FFFFFFF#32, 0#5, 0#16) := by decide
/-- SK3 and SK5: the most negative word and -10 are, and the sum wraps. -/
theorem test_skip_taken : regs (step (st [] 0x80000000#32 30#5 0x601F#16)) = some (0x80000000#32, 0#5, 0#16) ∧
    regs (step (st [] 0xFFFFFFF6#32 31#5 0x601F#16)) = some (0xFFFFFFF6#32, 1#5, 0#16) := by decide
/-- SP1 and SP2. -/
theorem test_stop : stopAt (step (st [] 0xFFFFFFF6#32 4#5 0xE000#16)) = some 4#5 ∧
    stopAt (step (st [] 0#32 17#5 0xFFFB#16)) = some 17#5 := by decide
/-- R150: the raw word 0xE000 is bit for bit the Stop instruction, the raw word 5 is Jump(5) (E14, DC16). -/
theorem test_absoluteValue : stopAt (exec (.absoluteValue 57344) (st [] 0#32 9#5 0#16)) = some 9#5 ∧
    regs (exec (.absoluteValue 5) (st [(5, 7#32)] 0#32 9#5 0#16)) = some (0#32, 7#5, 0#16) := by decide
/-- NG5 and RS3, on the 8-bit machine. -/
theorem test_eight_bits : Engine.step (st8 [(28, 0x80#8)] 0#8 0#5 0x5C#8) =
    .state (st8 [(28, 0x80#8)] 0x80#8 1#5 0#8) := by decide

/-! ## Reset, load, dump, run_bounded, linker -/

/-- SP4 and RS2: the upper bits are dropped, and a Stop at the entry point stops at once. -/
theorem test_load : (Engine.newWithProgram 16 ((Vector.replicate 32 0#32).set 0 0xFFFF4005#32)).ir = 0x4005#16 ∧
    Engine.step (Engine.newWithProgram 16 ((Vector.replicate 32 0#32).set 0 0xE000#32)) = .stopped 0#5 := by decide
/-- The instruction placed is the one the next step runs (the host's probe), for the alias row and for Stop. -/
theorem test_withFetchWord : step (State.reset.withFetchWord 32 0xA000) = exec (.subtract 0) (State.reset.withFetchWord 32 0xA000) ∧
    decodeTableWord 32 0xE000 = some .stop := ⟨rfl, by decide⟩
/-- RB1 and RB2 (S7): the limits 0 and 1 on the first two words of P1. -/
theorem test_runBounded : let s := st [(0, 0x4005#32), (1, 0x2005#32), (5, 0xFFFFFFFB#32)] 0#32 0#5 0x4005#16
    let s1 := st [(0, 0x4005#32), (1, 0x2005#32), (5, 0xFFFFFFFB#32)] 5#32 1#5 0x2005#16
    Engine.runBounded s 0 = (s, .iterationsExceeded s 0) ∧ Engine.runBounded s 1 = (s1, .iterationsExceeded s1 1) := by
  decide
/-- R105: a Stop that the next call would meet is not seen; one more call sees it, in the same final state (R107). -/
theorem test_runBounded_stop : let s := st [(1, 0xE000#32)] 0#32 0#5 0x4005#16
    let s1 := st [(1, 0xE000#32)] 0#32 1#5 0xE000#16
    Engine.runBounded s 1 = (s1, .iterationsExceeded s1 1) ∧ Engine.runBounded s 2 = (s1, .stopped 1#5) := by decide
/-- R189. -/
theorem test_dump : (Engine.dump (st [(31, 7#32)] 5#32 3#5 9#16)).memory.getLast? = some 7#32 := by decide

open Sys2Proof.Assembly in
/-- S4 and S5 (R174): the first three words of the image, and the missing tag. -/
theorem test_link_example :
    (link Config.reference [.tag "start", .real (.negate (.literal 2)), .real (.jump (.tagReference "start")),
      .real (.data (.literal 5))]).map (fun m => m.toList.take 4) = .ok [0x4002#32, 0#32, 5#32, 0#32] ∧
    (link Config.reference [.tag "start", .real (.negate (.literal 2)), .real (.jump (.tagReference "missing"))]).map
      (fun m => m.toList.take 4) = .error (.unknownTagName "missing") := by decide
open Sys2Proof.Assembly in
/-- LK4: only the nearest tag binds.  LK5: the later of two tags wins. -/
theorem test_link_tags :
    (link Config.reference [.tag "a", .tag "b", .real .stop, .real (.jump (.tagReference "a"))]).map
      (fun m => m.toList.take 2) = .error (.unknownTagName "a") ∧
    (link Config.reference [.tag "x", .real .stop, .tag "x", .real .stop, .real (.jump (.tagReference "x"))]).map
      (fun m => m.toList.take 3) = .ok [0xE000#32, 0xE000#32, 1#32] := by decide
open Sys2Proof.Assembly in
/-- LK7, LK8, LK10: 33 real lines are too many, 32 are not, and an unknown tag is reported first. -/
theorem test_link_size :
    (link Config.reference (List.replicate 33 (.real .stop))).map (fun m => m.toList.take 1) = .error (.programTooLarge 33) ∧
    (link Config.reference (List.replicate 32 (.real .stop))).map (fun m => m.toList.drop 31) = .ok [0xE000#32] ∧
    (link Config.reference (List.replicate 33 (.real .stop) ++ [.real (.jump (.tagReference "missing"))])).map
      (fun m => m.toList.take 1) = .error (.unknownTagName "missing") := by decide
open Sys2Proof.Assembly in
/-- R151: a data value that does not fit is refused. -/
theorem test_link_value : (link ⟨8, 8, 1#3⟩ [.real (.data (.literal 256))]).map (fun m => m.toList.take 1) =
    .error (.valueDoesNotFit 256) := by decide

open Sys2Proof.Assembly in
/-- R5: with F = 7 there is no machine, no word, no instruction and no image. -/
theorem test_configuration_refused : Config.newMachine ⟨32, 7, 1#3⟩ = none ∧ Config.encodeWord ⟨32, 7, 1#3⟩ .stop = none ∧
    Config.decodeWord ⟨32, 7, 1#3⟩ 0#32 = none ∧
    (link ⟨32, 7, 1#3⟩ [.real .stop]).map (fun m => m.toList.take 1) = .error .configurationRefused ∧
    (linkAndLoad ⟨32, 7, 1#3⟩ [.real .stop]).map (fun t => t.pc) = .error .configurationRefused := by decide

/-! ## Witnesses: the hypotheses of each statement, met at boundary values -/

/-- The width bounds of R5, at their edges: for every statement over `W` and `F` with no other hypothesis
(DecodeReadsOpcodeAndOperand, DecodeIsTotal, SubtractPatternsAreOneInstruction, EncodePacksFields, the instruction
statements, NewIsAllZeroAndNeverStops, ExecutionBeginsAtAddressZero). -/
theorem witness_widths : 8 ≤ 8 ∧ 8 ≤ 8 ∧ 8 ≤ 32 := by decide

/-- IgnoredBitsHaveNoEffect, one pair of words for each clause. -/
theorem witness_ignored_bits :
    (0xFFFF1FE5#32 : BitVec 32).toNat / 2 ^ 13 % 8 = (0x5#32 : BitVec 32).toNat / 2 ^ 13 % 8 ∧
    (0xFFFF1FE5#32 : BitVec 32).toNat % 32 = (0x5#32 : BitVec 32).toNat % 32 ∧
    (0x2005#32 : BitVec 32).toNat / 2 ^ 13 % 4 = 1 ∧ (0xA005#32 : BitVec 32).toNat / 2 ^ 13 % 4 = 1 ∧
    (0x6000#32 : BitVec 32).toNat / 2 ^ 13 % 8 = 3 ∧ (0x7FFF#32 : BitVec 32).toNat / 2 ^ 13 % 8 = 3 ∧
    (0xE000#32 : BitVec 32).toNat / 2 ^ 13 % 8 = 7 ∧ (0xFFFFFFFF#32 : BitVec 32).toNat / 2 ^ 13 % 8 = 7 := by decide
/-- AbsoluteValueEncodesAsLiteral: both ends of the range, each clause. -/
theorem witness_value_fits : 0 < 8 ∧ valueFits 8 255 = true ∧ (0 : Int) ≤ 255 ∧ valueFits 8 (-128) = true ∧
    (-128 : Int) < 2 ^ (8 - 1) := by decide
/-- DecodeUndoesEncode and EncodeAfterDecodeIsCanonical, either `SUB_ENC`. -/
theorem witness_round_trip : ((1#3 : BitVec 3) = 0b001#3 ∨ (1#3 : BitVec 3) = 0b101#3) ∧
    ((5#3 : BitVec 3) = 0b001#3 ∨ (5#3 : BitVec 3) = 0b101#3) ∧ (Instr.subtract 31).isRuntime = true ∧
    (Instr.subtract 31).wellFormed 8 = true := by decide
/-- SkipIfNegativeTestsAccumulatorSign: both signs at the edge, and the words of the decode clause. -/
theorem witness_skip : (0xFFFFFFFF#32 : BitVec 32).toInt < 0 ∧ 0 ≤ (0#32 : BitVec 32).toInt ∧
    (0x601F#32 : BitVec 32).toNat / 2 ^ 13 % 8 = 3 := by decide
/-- StopSignalsItsAddress, StoppedExactlyAtStop (its `run_bounded` clause in `test_runBounded_stop` too). -/
theorem witness_stop : decode 16 (st [] 0#32 31#5 0xE000#16).ir = .stop ∧ (0xFFFFFFFF#32 : BitVec 32).toNat / 2 ^ 13 % 8 = 7 ∧
    (Engine.runBounded (st [] 0#32 31#5 0xE000#16) 1).2 = .stopped 31#5 := by decide
/-- StoppedRunEndsAtItsStop: a run that meets its Stop at once, at the last address. -/
theorem witness_stopped_run : let s := st [] 0#32 31#5 0xE000#16
    Engine.runBounded s 1 = (s, .stopped 31#5) := by decide
/-- AbsoluteValueExecutesAsItsBitsSpell: the last value below a Stop, the first that is one, a value for each clause. -/
theorem witness_absoluteValue : (57343 : Int) / 2 ^ 13 % 8 ≠ 7 ∧ (57344 : Int) / 2 ^ 13 % 8 = 7 ∧ (-1 : Int) / 2 ^ 13 % 8 = 7 ∧
    (49151 : Int) / 2 ^ 13 % 8 ≠ 6 ∧ (0 : Int) / 2 ^ 13 % 4 ≠ 1 ∧ (0 : Int) / 2 ^ 13 % 8 ≠ 2 := by decide
/-- StepChangesNothingElse: each instruction answers a state. -/
theorem witness_frame_jump : exec (.jump 0) State.reset = .next State.reset := rfl
theorem witness_frame_relativeJump : exec (.relativeJump 0) State.reset = .next State.reset := rfl
theorem witness_frame_skip : exec .skipIfNegative State.reset = .next (st [] 0#32 1#5 0#16) := rfl
theorem witness_frame_negate : exec (.negate 31) State.reset = .next (st [] 0#32 1#5 0#16) := rfl
theorem witness_frame_subtract : exec (.subtract 31) State.reset = .next (st [] 0#32 1#5 0#16) := rfl
theorem witness_frame_store : exec (.store 31) State.reset = .next (st [] 0#32 1#5 0#16) := rfl
/-- EveryStepKeepsInvariant, and the whole-step clause of StepChangesNothingElse. -/
theorem witness_step : Engine.Inv State.reset ∧ step State.reset = .next State.reset := ⟨by decide, rfl⟩
/-- The clauses over every width of StepChangesNothingElse and ReachableStatesAreFetched. -/
theorem witness_step_engine : Engine.step (st8 [] 1#8 0#5 0xDF#8) = .state (st8 [(31, 1#8)] 1#8 1#5 0#8) := rfl
/-- StepRunsDecodedInstruction and JumpToItselfChangesNothing, both clauses. -/
theorem witness_invariant : Engine.Inv State.reset ∧ (State.reset.mem.read (maskAddr 0)).toNat % 32 = State.reset.pc.toNat ∧
    (State.reset.mem.read (maskAddr 0)).toInt % 32 = 0 ∧ decode 16 (State.reset.mem.read State.reset.pc) = .jump 0 := by decide
/-- NoMeaningRefuses. -/
theorem witness_fault : exec .stop State.reset = .fault (.stopped 0#5) := rfl
/-- ArithmeticWraps, `W = 8`: a value for each clause, at its edge. -/
theorem witness_arithmetic : (0 : Nat) < 8 ∧
    -2 ^ (8 - 1) ≤ (0x80#8 : BitVec 8).toInt - (0#8 : BitVec 8).toInt ∧
    (0x7F#8 : BitVec 8).toInt - (0#8 : BitVec 8).toInt < 2 ^ (8 - 1) ∧
    2 ^ (8 - 1) ≤ (0x7F#8 : BitVec 8).toInt - (0xFF#8 : BitVec 8).toInt ∧
    (0x80#8 : BitVec 8).toInt - (1#8 : BitVec 8).toInt < -2 ^ (8 - 1) ∧
    (0x81#8 : BitVec 8).toInt ≠ -2 ^ (8 - 1) ∧ (0x80#8 : BitVec 8).toInt = -2 ^ (8 - 1) := by decide
/-- OnlyLowBitsReachTheProgramCounter. -/
theorem witness_width_five : 5 ≤ 5 := by decide
/-- StoredWordIsFetched: the wrapped next word, and the instruction's own word. -/
theorem witness_store_ahead : (((31#5 : Addr).toNat : Int) + 1) % 32 = 32 % 32 ∧ ((31#5 : Addr).toNat : Int) = 63 % 32 := by decide
/-- EngineFollowsTransitionTable, a Stop and another opcode, at the narrowest width. -/
theorem witness_transition : let s := st8 [(31, 9#8)] 0#8 0#5 0xFF#8
    7 = s.ir.toNat / 2 ^ (8 - 3) ∧ (31#5 : Addr).toNat = s.ir.toNat % 32 ∧ 9#8 = s.mem.read 31#5 ∧
    0 = (st8 [] 0#8 0#5 0#8).ir.toNat / 2 ^ (8 - 3) := by decide
/-- ReachableStatesAreFetched and StatesEqualByComponents. -/
theorem witness_reachable : Engine.Reachable State.reset := Engine.Reachable.new
theorem witness_canonical : (State.reset.mem).wf = true ∧ Memory.wf [(0, 1#32), (31, 2#32)] = true := by decide
/-- The canonical form refuses a zero word, an order that does not rise, and an address outside the memory. -/
theorem test_not_canonical : Memory.wf [(0, 0#32)] = false ∧ Memory.wf [(3, 1#32), (3, 1#32)] = false ∧
    Memory.wf [(32, 1#32)] = false := by decide
/-- ReadReturnsMostRecentStore, second clause: one step, which is a Store to the word read, and none after it. -/
theorem witness_recent_store : let s := st [] 7#32 0#5 0xC003#16
    Engine.afterSteps 1 s = some (st [(3, 7#32)] 7#32 1#5 0#16) ∧ 0 < 1 ∧ Engine.afterSteps 0 s = some s ∧
    decode 16 s.ir = .store 3 ∧ maskAddr 3 = 3#5 ∧ ∀ j, 0 < j → ¬ j < 1 := by
  refine ⟨by decide, by decide, by decide, by decide, by decide, fun j h => by omega⟩
/-- ReadReturnsMostRecentStore, first clause: the same step stores nothing to word 4. -/
theorem witness_no_store : let s := st [] 7#32 0#5 0xC003#16
    Engine.afterSteps 1 s = some (st [(3, 7#32)] 7#32 1#5 0#16) ∧
    ∀ j u a, j < 1 → Engine.afterSteps j s = some u → decode 16 u.ir = .store a → maskAddr a ≠ 4#5 := by
  refine ⟨by decide, fun j u a hj hu hd => ?_⟩
  obtain rfl : j = 0 := by omega
  obtain rfl : st [] 7#32 0#5 0xC003#16 = u := Option.some.inj hu
  obtain rfl : (3 : Int) = a := Instr.store.inj hd
  decide
/-- RunBoundedComposes, the limits 0 and 1. -/
theorem witness_run_cut : Engine.runBounded State.reset 0 = (State.reset, .iterationsExceeded State.reset 0) ∧
    Engine.runBounded State.reset 1 = (State.reset, .iterationsExceeded State.reset 1) := by decide
/-- DumpReflectsStateExactly. -/
theorem witness_dump : (State.reset.mem).wf = true ∧ Engine.dump State.reset = Engine.dump State.reset := ⟨rfl, rfl⟩
/-- ValueExpressionsResolve, InstructionLinesEncode and DataLinesPlaceRawWords: a tag that is there, one that is not, a
valid configuration, values at both ends and just outside. -/
theorem witness_values : Assembly.SymbolTable.find "x" [("x", 3)] = some 3 ∧ Assembly.SymbolTable.find "y" [("x", 3)] = none ∧
    Config.reference.valid = true ∧ Assembly.resolveValue [] (.literal 37) = .ok 37 ∧
    Assembly.resolveValue [] (.tagReference "y") = .error (.unknownTagName "y") := by decide
theorem witness_data : (0 : Nat) < 8 ∧ -2 ^ (8 - 1) ≤ (-128 : Int) ∧ (255 : Int) < 2 ^ 8 ∧ (-129 : Int) < -2 ^ (8 - 1) ∧
    2 ^ 8 ≤ (256 : Int) := by decide
/-- LinkBuildsTheImage: a program that links, so that the configuration is inside the bounds too. -/
theorem witness_link : ∃ image, Assembly.link Config.reference [.real .stop] = .ok image := ⟨_, rfl⟩
/-- ConfigurationsOutsideBoundsAreRefused: an instruction whose word is answered, and a decoded one, in the narrowest
configuration. -/
theorem witness_configuration : Config.encodeWord ⟨8, 8, 5#3⟩ (.subtract 31) = some 0xBF#8 ∧
    Config.decodeWord ⟨8, 8, 5#3⟩ 0xBF#8 = some (.subtract 31) := by decide

end Sys2Proof.Tests
end

/-! PROOFS. What a configuration refuses (00_scope): the machine and codec operations answer exactly inside the bounds of R5
and R6, and the linker's own errors are never the refusal of a configuration, so that the refusal means the bounds alone. -/

namespace Sys2Proof

/-! ## The operations of a configuration answer inside the bounds -/

@[simp] theorem Config.newMachine_isSome (c : Config) : c.newMachine.isSome = c.valid := by
  cases h : c.valid <;> simp [Config.newMachine, h]

@[simp] theorem Config.loadMachine_isSome (c : Config) (m : Image c.W) : (c.loadMachine m).isSome = c.valid := by
  cases h : c.valid <;> simp [Config.loadMachine, h]

@[simp] theorem Config.decodeWord_isSome (c : Config) (w : BitVec c.W) : (c.decodeWord w).isSome = c.valid := by
  cases h : c.valid <;> simp [Config.decodeWord, h]

theorem Config.newMachine_eq_none (c : Config) : c.newMachine = none ↔ c.valid = false := by
  rw [← Option.not_isSome_iff_eq_none, Config.newMachine_isSome, Bool.not_eq_true]

theorem Config.decodeWord_eq_some {c : Config} {w : BitVec c.W} {i : Instr} :
    c.decodeWord w = some i ↔ c.valid = true ∧ i = decode c.F w := by
  simp [Config.decodeWord, eq_comm (a := i)]

theorem Config.encodeWord_eq_some {c : Config} {i : Instr} {w : BitVec c.W} :
    c.encodeWord i = some w ↔ c.valid = true ∧ i.encodable c.W = true ∧ w = encode c.W c.F c.subEnc i := by
  simp [Config.encodeWord, and_assoc, eq_comm (a := w)]

/-- The bounds of R5 and R6 with `SUB_ENC` as a number. -/
theorem Config.valid_iff_toNat (c : Config) :
    c.valid = true ↔ 8 ≤ c.F ∧ c.F ≤ c.W ∧ (c.subEnc.toNat = 1 ∨ c.subEnc.toNat = 5) := by
  simp [Config.valid_iff, ← BitVec.toNat_inj]

/-! ## What linking can fail with inside the bounds -/

namespace Assembly

theorem except_map_eq_error {ε α β : Type} {f : α → β} {a : Except ε α} {x : ε} : a.map f = .error x ↔ a = .error x := by
  cases a <;> simp [Except.map]

/-- A value expression fails only as an unknown tag (R163). -/
theorem resolveValue_error {table : SymbolTable} {e : ValueExpr} {x : LinkError} (h : resolveValue table e = .error x) :
    ∃ name, x = .unknownTagName name := by
  cases e with
  | literal z => cases h
  | tagReference name =>
    rw [resolveValue] at h
    split at h
    · cases h
    · exact ⟨name, (Except.error.inj h).symm⟩

/-- A data value fails only by not fitting a word (R151). -/
theorem dataInstr_error {W : Nat} {z : Int} {x : LinkError} (h : dataInstr W z = .error x) : x = .valueDoesNotFit z := by
  unfold dataInstr at h
  split at h
  · cases h
  · exact (Except.error.inj h).symm

/-- A line fails by an unknown tag or by a data value that does not fit (R165, R166). -/
theorem resolveLine_error {c : Config} {table : SymbolTable} {r : RealLine} {x : LinkError}
    (h : resolveLine c table r = .error x) : (∃ name, x = .unknownTagName name) ∨ ∃ v, x = .valueDoesNotFit v := by
  have hi : resolveInstr c.W table r = .error x := except_map_eq_error.mp h
  cases r with
  | data e =>
    cases hv : resolveValue table e with
    | error y =>
      rw [resolveInstr, hv] at hi
      exact .inl (Except.error.inj hi ▸ resolveValue_error hv)
    | ok z =>
      rw [resolveInstr, hv] at hi
      exact .inr ⟨z, dataInstr_error hi⟩
  | jump e | relativeJump e | negate e | store e | subtract e =>
    exact .inl (resolveValue_error (except_map_eq_error.mp hi))
  | skipIfNegative | stop => cases hi

/-- The lines fail together only with the error of one of them (R169). -/
theorem resolveAll_error {c : Config} {table : SymbolTable} {pairs : List (Option String × RealLine)} {x : LinkError}
    (h : resolveAll c table pairs = .error x) : ∃ p ∈ pairs, resolveLine c table p.2 = .error x := by
  induction pairs with
  | nil => cases h
  | cons p rest ih =>
    unfold resolveAll at h
    split at h
    · next y hy => exact ⟨p, List.mem_cons_self, Except.error.inj h ▸ hy⟩
    · split at h
      · next y hy =>
        obtain ⟨q, hq, hqx⟩ := ih (Except.error.inj h ▸ hy)
        exact ⟨q, List.mem_cons_of_mem _ hq, hqx⟩
      · cases h

/-- The linker fails with the error of a line or because the program is too large (R169, R170). -/
theorem linkLines_error {c : Config} {lines : List Line} {x : LinkError} (h : linkLines c lines = .error x) :
    (∃ p ∈ associate lines, resolveLine c (build (associate lines)) p.2 = .error x) ∨ ∃ n, x = .programTooLarge n := by
  unfold linkLines at h
  split at h
  · next y hy => exact .inl (resolveAll_error (Except.error.inj h ▸ hy))
  · split at h
    · cases h
    · exact .inr ⟨_, (Except.error.inj h).symm⟩

theorem linkLines_ne_configurationRefused (c : Config) (lines : List Line) :
    linkLines c lines ≠ .error .configurationRefused := by
  intro h
  obtain ⟨p, -, hp⟩ | ⟨n, hn⟩ := linkLines_error h
  · obtain ⟨name, hx⟩ | ⟨v, hx⟩ := resolveLine_error hp <;> cases hx
  · cases hn

/-- The refusal of `link` means that the configuration is outside the bounds. -/
theorem link_eq_configurationRefused (c : Config) (lines : List Line) :
    link c lines = .error .configurationRefused ↔ c.valid = false := by
  cases hv : c.valid with
  | true => simp [link_of_valid hv, linkLines_ne_configurationRefused]
  | false => simp [link_of_refused hv]

end Assembly

/-- Settles O43: every operation is guarded by `Config.valid`, and the linker has no other source of the refusal. -/
theorem configurationsOutsideBoundsAreRefused : Obligations.ConfigurationsOutsideBoundsAreRefused := by
  intro c
  refine ⟨?_, fun m => ?_, fun w => ⟨?_, fun i hi => ?_⟩, fun i w => ?_, fun lines => ⟨?_, ?_⟩⟩
  · rw [Config.newMachine_isSome, Config.valid_iff_toNat]
  · rw [Config.loadMachine_isSome, Config.newMachine_isSome]
  · rw [Config.decodeWord_isSome, Config.newMachine_isSome]
  · exact (Config.decodeWord_eq_some.mp hi).2
  · rw [Config.encodeWord_eq_some, Config.newMachine_isSome, Instr.encodable_iff]
  · rw [Assembly.link_eq_configurationRefused, Config.newMachine_eq_none]
  · rw [Assembly.linkAndLoad, Assembly.except_map_eq_error, Assembly.link_eq_configurationRefused,
      Config.newMachine_eq_none]

end Sys2Proof

/-! PROOFS. The state (10_state): every state made by `new`, by `new_with_program` or by a step holds in `ir` the field of
the word at `pc` (R25), its memory is in canonical form, and a canonical memory is given by its 32 words (R30). -/

namespace Sys2Proof

/-! ## The host's step is the engine's -/

theorem decode_isRuntime (F : Nat) {W : Nat} (w : BitVec W) : (decode F w).isRuntime = true := by
  rcases decode_cases F w with h | h | h | h | h | h | h <;> rw [h] <;> rfl

/-- A run-time variant means under `exec` what the engine's dispatch makes of it (R93). -/
theorem Machine.exec_eq_hostOutcome {i : Instr} (h : i.isRuntime = true) (s : Machine.State) :
    Machine.exec i s = Machine.hostOutcome (Engine.dispatch i s) := by
  cases i with
  | absoluteValue v => cases h
  | jump a | relativeJump a | negate a | store a | subtract a => rfl
  | skipIfNegative | stop => rfl

theorem Machine.step_eq_hostOutcome (s : Machine.State) : Machine.step s = Machine.hostOutcome (Engine.step s) :=
  Machine.exec_eq_hostOutcome (decode_isRuntime 16 s.ir) s

theorem Machine.step_next {s t : Machine.State} : Machine.step s = .next t ↔ Engine.step s = .state t := by
  rw [Machine.step_eq_hostOutcome, Engine.hostOutcome_next]

namespace Engine

variable {W F : Nat} {s t : State W F}

/-! ## What a step keeps -/

/-- A step that answers a state ends with the re-fetch (R95), whatever the state before it was. -/
theorem step_fetchInv (h : step s = .state t) : FetchInv t := by
  obtain ⟨-, -, rfl⟩ := dispatch_state h
  exact continueAt_fetched _ _

theorem step_wf (h : step s = .state t) (hs : s.mem.wf = true) : t.mem.wf = true := by
  obtain ⟨-, -, rfl⟩ := dispatch_state h
  rw [continueAt_mem]
  exact updated_wf _ s hs

theorem step_inv (h : step s = .state t) (hs : Inv s) : Inv t := ⟨step_fetchInv h, step_wf h hs.2⟩

/-! ## The invariant at reset and after a load, and so in every reachable state -/

theorem new_inv (W F : Nat) : Inv (new W F) := by
  have hir : (0#F : BitVec F) = field F (0#W) := BitVec.eq_of_toNat_eq (by simp [field_toNat])
  exact ⟨hir, Memory.nil_wf⟩

theorem newWithProgram_inv (F : Nat) (m : Image W) : Inv (newWithProgram F m) := by
  have hread : (Memory.ofImage m).read 0#5 = m[0] := Memory.read_ofImage m 0#5
  refine ⟨?_, Memory.ofImage_wf m⟩
  rw [FetchInv, newWithProgram_ir, newWithProgram_mem, newWithProgram_pc, hread]

theorem Reachable.inv (h : Reachable s) : Inv s := by
  induction h with
  | new => exact new_inv W F
  | load m => exact newWithProgram_inv F m
  | step _ hs ih => exact step_inv hs ih

/-- Decoding `ir` is decoding the word at `pc`, where the fetch invariant holds (R25, R91). -/
theorem FetchInv.decode_ir (h : FetchInv s) (hF : 8 ≤ F) : decode F s.ir = decode F (s.mem.read s.pc) := by
  rw [h, decode_field hF]

/-! ## Equality of states -/

/-- On canonical memories, a state is its 32 words, `acc`, `pc` and `ir` (R30). -/
theorem eq_iff_components (hs : s.mem.wf = true) (ht : t.mem.wf = true) :
    s = t ↔ (∀ a : Addr, s.mem.read a = t.mem.read a) ∧ s.acc = t.acc ∧ s.pc = t.pc ∧ s.ir = t.ir := by
  constructor
  · rintro rfl
    exact ⟨fun _ => rfl, rfl, rfl, rfl⟩
  · rintro ⟨hread, hacc, hpc, hir⟩
    exact state_ext (Memory.eq_of_read s.mem t.mem hs ht hread) hacc hpc hir

end Engine

/-- Settles O31: the host's step is the engine's, and that one re-fetches after an update that keeps memory canonical. -/
theorem everyStepKeepsInvariant : Obligations.EveryStepKeepsInvariant :=
  ⟨fun _ _ hs h => Engine.step_inv (Machine.step_next.mp h) hs,
    fun _ _ h => Engine.step_fetchInv (Machine.step_next.mp h)⟩

/-- Settles O33, by induction on reachability for the last clause. -/
theorem reachableStatesAreFetched : Obligations.ReachableStatesAreFetched := fun W F =>
  ⟨(Engine.new_inv W F).1, fun m => (Engine.newWithProgram_inv F m).1, fun _ _ h => Engine.step_fetchInv h,
    fun _ h => ⟨h.inv.1, fun hF _ => Engine.FetchInv.decode_ir h.inv.1 hF⟩⟩

/-- Settles O34: a canonical memory is determined by its reads, and every reachable memory is canonical. -/
theorem statesEqualByComponents : Obligations.StatesEqualByComponents := fun _ _ _ _ =>
  ⟨fun h => h.inv.2, Engine.eq_iff_components⟩

end Sys2Proof

/-! PROOFS. Memory (20_memory): what a step leaves in each word, and so what a run leaves there: the value of the most
recent Store (R49); and which memory the re-fetch after a Store sees (R52, R95). -/

namespace Sys2Proof

theorem maskAddr_eq_iff {z : Int} {n : Addr} : maskAddr z = n ↔ (n.toNat : Int) = z % 32 := by
  rw [← maskAddr_toNat, Int.ofNat_inj, BitVec.toNat_inj, eq_comm]

namespace Engine

variable {W F : Nat} {s t u : State W F} {b : Addr} {j k : Nat}

/-! ## The word at `b` over one step -/

/-- The step from `s` is a Store to `b`. -/
def StoresTo (b : Addr) (s : State W F) : Prop := ∃ a, decode F s.ir = .store a ∧ maskAddr a = b

theorem not_storesTo_iff : ¬ StoresTo b s ↔ ∀ a, decode F s.ir = .store a → maskAddr a ≠ b := by
  simp only [StoresTo, not_exists, not_and, ne_eq]

/-- Of the updates only that of a Store to `b` touches the word at `b`. -/
theorem updated_read_of_not_store {i : Instr} (s : State W F) (h : ∀ a, i = .store a → maskAddr a ≠ b) :
    (updated i s).mem.read b = s.mem.read b := by
  cases i with
  | store a => exact Memory.read_write_of_ne _ _ (h a rfl).symm
  | jump a | relativeJump a | negate a | subtract a | absoluteValue a => rfl
  | skipIfNegative | stop => rfl

theorem step_read_of_storesTo (h : step s = .state t) (hb : StoresTo b s) : t.mem.read b = s.acc := by
  obtain ⟨a, ha, rfl⟩ := hb
  obtain ⟨-, -, rfl⟩ := dispatch_state h
  rw [continueAt_mem, ha]
  exact Memory.read_write_same _ _ _

theorem step_read_of_not_storesTo (h : step s = .state t) (hb : ¬ StoresTo b s) : t.mem.read b = s.mem.read b := by
  obtain ⟨-, -, rfl⟩ := dispatch_state h
  exact updated_read_of_not_store s (not_storesTo_iff.mp hb)

/-! ## The word at `b` over a run -/

theorem afterSteps_succ_eq_some : afterSteps (k + 1) s = some t ↔ ∃ s', step s = .state s' ∧ afterSteps k s' = some t := by
  cases h : step s <;> simp [afterSteps, h]

/-- A run without a Store to `b` keeps the word at `b`. -/
theorem afterSteps_read_of_not_storesTo (ht : afterSteps k s = some t)
    (hno : ∀ i v, i < k → afterSteps i s = some v → ¬ StoresTo b v) : t.mem.read b = s.mem.read b := by
  induction k generalizing s with
  | zero => rw [Option.some.inj ht]
  | succ k ih =>
    obtain ⟨s', hs, hrest⟩ := afterSteps_succ_eq_some.mp ht
    have hlater : t.mem.read b = s'.mem.read b := ih hrest fun i v hi hv =>
      hno (i + 1) v (by omega) (afterSteps_succ_eq_some.mpr ⟨s', hs, hv⟩)
    rw [hlater, step_read_of_not_storesTo hs (hno 0 s (by omega) rfl)]

/-- After the last Store to `b` the word at `b` is the accumulator that Store was made with. -/
theorem afterSteps_read_of_storesTo (ht : afterSteps k s = some t) (hjk : j < k) (hu : afterSteps j s = some u)
    (hb : StoresTo b u) (hno : ∀ i v, j < i → i < k → afterSteps i s = some v → ¬ StoresTo b v) :
    t.mem.read b = u.acc := by
  obtain ⟨m, rfl⟩ : ∃ m, k = j + (m + 1) := ⟨k - j - 1, by omega⟩
  have hrun : ∀ i, afterSteps (j + i) s = afterSteps i u := fun i => by rw [afterSteps_add, hu, Option.bind_some]
  obtain ⟨u', hstep, hrest⟩ := afterSteps_succ_eq_some.mp (hrun (m + 1) ▸ ht)
  have hlater : t.mem.read b = u'.mem.read b := afterSteps_read_of_not_storesTo hrest fun i v hi hv =>
    hno (j + (i + 1)) v (by omega) (by omega) (by rw [hrun, afterSteps_succ_state hstep, hv])
  rw [hlater, step_read_of_storesTo hstep hb]

/-! ## The re-fetch after a Store -/

/-- The next word is never the instruction's own word, the wrap included (R94). -/
theorem pcPlus_one_ne (pc : Addr) : pcPlus pc 1 ≠ pc := by
  intro h
  have hpc := pcPlus_toNat pc 1
  rw [h] at hpc
  omega

/-- The state a Store answers (R135). -/
def afterStore (a : Int) (s : State W F) : State W F := (s.withWord (maskAddr a) s.acc).continueAt (pcPlus s.pc 1)

theorem dispatch_store (a : Int) (s : State W F) : dispatch (.store a) s = .state (afterStore a s) := rfl

@[simp] theorem afterStore_pc (a : Int) (s : State W F) : (afterStore a s).pc = pcPlus s.pc 1 := rfl

theorem afterStore_read (a : Int) (s : State W F) (b : Addr) :
    (afterStore a s).mem.read b = if b = maskAddr a then s.acc else s.mem.read b := Memory.read_write _ _ _ _

theorem afterStore_ir (a : Int) (s : State W F) :
    (afterStore a s).ir.toNat = ((afterStore a s).mem.read (pcPlus s.pc 1)).toNat % 2 ^ F := field_toNat F _

end Engine

/-- Settles O24: the re-fetch reads the new memory at the next word, which a Store over its own word leaves alone. -/
theorem storedWordIsFetched : Obligations.StoredWordIsFetched := by
  intro W F a s
  refine ⟨Engine.afterStore a s, Engine.dispatch_store a s, fun hnext => ?_, fun hown => ?_⟩
  · have hn : Engine.pcPlus s.pc 1 = maskAddr a := maskAddr_congr hnext
    rw [Engine.afterStore_ir, Engine.afterStore_read, if_pos hn]
  · have hn : maskAddr a = s.pc := maskAddr_eq_iff.mpr hown
    rw [Engine.afterStore_ir, Engine.afterStore_read, Engine.afterStore_read, hn, if_pos rfl,
      if_neg (Engine.pcPlus_one_ne s.pc), Engine.afterStore_pc]
    exact ⟨rfl, rfl⟩

/-- Settles O35: a Store writes the accumulator, and no other step touches the word. -/
theorem readReturnsMostRecentStore : Obligations.ReadReturnsMostRecentStore := by
  intro W F s t k b ht
  refine ⟨fun hno => ?_, fun j u a hjk hu hdec hab hno => ?_⟩
  · exact Engine.afterSteps_read_of_not_storesTo ht fun i v hi hv =>
      Engine.not_storesTo_iff.mpr fun a => hno i v a hi hv
  · exact Engine.afterSteps_read_of_storesTo ht hjk hu ⟨a, hdec, hab⟩ fun i v hji hik hv =>
      Engine.not_storesTo_iff.mpr fun a' => hno i v a' hji hik hv

end Sys2Proof

/-! PROOFS. The codec (30_encoding): the opcode table of R64 as a relation that every decoded word is in, the opcode
column of `encode`, a packed word as its four fields; from these the two round trips (R74, R75), and the transition table of R93
read off `ir`. -/

namespace Sys2Proof

variable {W F op : Nat} {n : Addr} {i : Instr}

/-! ## The opcode table -/

/-- A row of R64: the opcode `op`, with operand bits `n`, is the instruction. -/
inductive OpcodeRow (n : Addr) : (op : Nat) → Instr → Prop
  | jump : OpcodeRow n 0 (.jump n.toNat)
  | subtract : OpcodeRow n 1 (.subtract n.toNat)
  | negate : OpcodeRow n 2 (.negate n.toNat)
  | skipIfNegative : OpcodeRow n 3 .skipIfNegative
  | relativeJump : OpcodeRow n 4 (.relativeJump n.toNat)
  | subtractAlias : OpcodeRow n 5 (.subtract n.toNat)
  | store : OpcodeRow n 6 (.store n.toNat)
  | stop : OpcodeRow n 7 .stop

/-- Every word decodes by the row of its opcode, with its low five bits as operand (R66). -/
theorem decode_row (F : Nat) (w : BitVec W) : OpcodeRow (low5 w) (w.toNat / 2 ^ (F - 3) % 8) (decode F w) := by
  have eight : ∀ o : BitVec 3, o = 0 ∨ o = 1 ∨ o = 2 ∨ o = 3 ∨ o = 4 ∨ o = 5 ∨ o = 6 ∨ o = 7 := by decide
  rw [← opcodeBits_toNat, decode]
  rcases eight (opcodeBits F w) with h | h | h | h | h | h | h | h <;> rw [h] <;> constructor

/-- The table in the order of the pseudocode of R66. -/
theorem OpcodeRow.eq_ite (h : OpcodeRow n op i) :
    i = if op = 0 then .jump n.toNat else if op = 4 then .relativeJump n.toNat else if op = 2 then .negate n.toNat
      else if op = 6 then .store n.toNat else if op = 1 then .subtract n.toNat else if op = 5 then .subtract n.toNat
      else if op = 3 then .skipIfNegative else .stop := by
  cases h <;> rfl

theorem OpcodeRow.eq_subtract (h : OpcodeRow n op i) (hop : op % 4 = 1) : i = .subtract n.toNat := by
  cases h with
  | subtract | subtractAlias => rfl
  | jump | negate | skipIfNegative | relativeJump | store | stop => cases hop

theorem OpcodeRow.eq_skipIfNegative_iff (h : OpcodeRow n op i) : i = .skipIfNegative ↔ op = 3 := by
  cases h <;> simp

theorem OpcodeRow.eq_stop_iff (h : OpcodeRow n op i) : i = .stop ↔ op = 7 := by
  cases h <;> simp

/-! ## decode by the opcode as a number -/

/-- Whether the opcode is a Subtract pattern shows in its low two bits. -/
theorem opcode_mod_four (F : Nat) (w : BitVec W) :
    w.toNat / 2 ^ (F - 3) % 8 % 4 = w.toNat / 2 ^ (F - 3) % 4 := Nat.mod_mod_of_dvd _ (by decide)

theorem decode_of_subtract_opcode {w : BitVec W} (h : w.toNat / 2 ^ (F - 3) % 4 = 1) :
    decode F w = .subtract (low5 w).toNat := (decode_row F w).eq_subtract ((opcode_mod_four F w).trans h)

theorem decode_eq_skipIfNegative_iff {w : BitVec W} :
    decode F w = .skipIfNegative ↔ w.toNat / 2 ^ (F - 3) % 8 = 3 := (decode_row F w).eq_skipIfNegative_iff

theorem decode_eq_stop_iff {w : BitVec W} : decode F w = .stop ↔ w.toNat / 2 ^ (F - 3) % 8 = 7 :=
  (decode_row F w).eq_stop_iff

theorem decode_zero (W F : Nat) : decode F (0#W) = .jump 0 := by
  simpa [low5_toNat] using (decode_row F (0#W)).eq_ite

/-- An instruction register is the field of the word it is the low bits of. -/
theorem field_setWidth (hFW : F ≤ W) (ir : BitVec F) : field F (ir.setWidth W) = ir := by
  apply BitVec.eq_of_toNat_eq
  rw [field_toNat, BitVec.toNat_setWidth, Nat.mod_mod_of_dvd _ (pow_dvd_pow 2 hFW), Nat.mod_eq_of_lt ir.isLt]

theorem operandFits_addr (n : Addr) : operandFits n.toNat = true := by
  have hn := n.isLt
  simp only [operandFits, Bool.and_eq_true, decide_eq_true_eq]
  omega

theorem OpcodeRow.wellFormed (h : OpcodeRow n op i) (W : Nat) : i.wellFormed W = true := by
  cases h with
  | jump | subtract | negate | relativeJump | subtractAlias | store => exact operandFits_addr n
  | skipIfNegative | stop => rfl

/-! ## encode as an opcode column and the masked operand -/

/-- The opcode `encode` puts in `[F-1:F-3]` (R64, R72); an AbsoluteValue has none (R73). -/
def opcodeOf (subEnc : BitVec 3) : Instr → BitVec 3
  | .jump _ => 0#3
  | .relativeJump _ => 4#3
  | .negate _ => 2#3
  | .store _ => 6#3
  | .subtract _ => subEnc
  | .skipIfNegative => 3#3
  | .stop => 7#3
  | .absoluteValue _ => 0#3

theorem encode_eq_packWord (hi : i.isRuntime = true) (W F : Nat) (e : BitVec 3) :
    encode W F e i = packWord W F (opcodeOf e i) (getOperand i) := by
  cases i with
  | absoluteValue v => cases hi
  | jump a | relativeJump a | negate a | store a | subtract a => rfl
  | skipIfNegative | stop => rfl

theorem encode_toNat (hi : i.isRuntime = true) (hF : 8 ≤ F) (hFW : F ≤ W) (e : BitVec 3) :
    (encode W F e i).toNat = (opcodeOf e i).toNat * 2 ^ (F - 3) + (getOperand i).toNat := by
  rw [encode_eq_packWord hi, packWord_toNat hF hFW]

/-! ## decode after encode (R74) -/

theorem maskAddr_of_operandFits {a : Int} (h : operandFits a = true) : ((maskAddr a).toNat : Int) = a := by
  simp only [operandFits, Bool.and_eq_true, decide_eq_true_eq] at h
  rw [maskAddr_toNat]
  omega

/-- A well-formed instruction is its own reduction modulo 32. -/
theorem Instr.reduce_of_wellFormed (h : i.wellFormed W = true) : i.reduce = i := by
  cases i with
  | jump a | relativeJump a | negate a | store a | subtract a => rw [Instr.reduce, maskAddr_of_operandFits h]
  | skipIfNegative | stop | absoluteValue v => rfl

theorem decode_encode (hi : i.isRuntime = true) (hF : 8 ≤ F) (hFW : F ≤ W) {e : BitVec 3}
    (he : e = 0b001#3 ∨ e = 0b101#3) : decode F (encode W F e i) = i.reduce := by
  rw [encode_eq_packWord hi, decode_packWord hF hFW]
  cases i with
  | absoluteValue v => cases hi
  | subtract a => rcases he with rfl | rfl <;> rfl
  | jump a | relativeJump a | negate a | store a => rfl
  | skipIfNegative | stop => rfl

/-- Settles O9: an encoding is its opcode and its masked operand, and `decode` reads exactly these two. -/
theorem decodeUndoesEncode : Obligations.DecodeUndoesEncode := by
  intro W F hF hFW e he i hi
  have hred := decode_encode hi hF hFW he
  exact ⟨hred, fun hwf => hred.trans (Instr.reduce_of_wellFormed hwf)⟩

/-! ## encode after decode (R75) -/

/-- A word is its upper bits, its opcode, its between bits and its operand (R61). -/
theorem toNat_eq_fields (hF : 8 ≤ F) (w : BitVec W) :
    w.toNat = w.toNat / 2 ^ F * 2 ^ F + w.toNat / 2 ^ (F - 3) % 8 * 2 ^ (F - 3) + w.toNat % 2 ^ (F - 3) / 32 * 32 +
      w.toNat % 32 := by
  obtain ⟨hP, hk⟩ := fieldWidth_pow hF
  have htop : w.toNat / 2 ^ F = w.toNat / 2 ^ (F - 3) / 8 := by rw [hP, Nat.mul_comm, Nat.div_div_eq_div_mul]
  have hlow : w.toNat % 2 ^ (F - 3) % 32 = w.toNat % 32 := Nat.mod_mod_of_dvd _ ⟨_, hk⟩
  calc w.toNat
      = w.toNat / 2 ^ (F - 3) * 2 ^ (F - 3) + w.toNat % 2 ^ (F - 3) := (Nat.div_add_mod' _ _).symm
    _ = (w.toNat / 2 ^ F * 8 + w.toNat / 2 ^ (F - 3) % 8) * 2 ^ (F - 3) +
          (w.toNat % 2 ^ (F - 3) / 32 * 32 + w.toNat % 32) := by
        rw [htop, Nat.div_add_mod' (w.toNat / 2 ^ (F - 3)), ← hlow, Nat.div_add_mod' (w.toNat % 2 ^ (F - 3)),
          Nat.div_add_mod']
    _ = _ := by rw [hP]; ring

/-- The words that are packed: nothing above the field, nothing between opcode and operand. -/
theorem packWord_eq_iff (hF : 8 ≤ F) (hFW : F ≤ W) {op : BitVec 3} {w : BitVec W} :
    packWord W F op n = w ↔
      w.toNat / 2 ^ F = 0 ∧ w.toNat % 2 ^ (F - 3) / 32 = 0 ∧ opcodeBits F w = op ∧ low5 w = n := by
  have hn := n.isLt
  constructor
  · rintro rfl
    obtain ⟨hP, hk⟩ := fieldWidth_pow hF
    have hpos : 0 < 2 ^ (F - 8) := by positivity
    have hop : op.toNat * 2 ^ (F - 3) ≤ 7 * 2 ^ (F - 3) := Nat.mul_le_mul_right _ (by omega)
    refine ⟨?_, ?_, opcodeBits_packWord hF hFW op n, low5_packWord hF hFW op n⟩
    · rw [packWord_toNat hF hFW]
      exact Nat.div_eq_of_lt (by omega)
    · rw [packWord_toNat hF hFW, Nat.mul_add_mod', Nat.mod_eq_of_lt (by omega)]
      exact Nat.div_eq_of_lt hn
  · rintro ⟨hupper, hbetween, rfl, rfl⟩
    have hw := toNat_eq_fields hF w
    rw [hupper, hbetween, Nat.zero_mul, Nat.zero_mul, Nat.zero_add, Nat.add_zero] at hw
    apply BitVec.eq_of_toNat_eq
    rw [packWord_toNat hF hFW, opcodeBits_toNat, low5_toNat, ← hw]

/-- Only a Subtract opcode can come back changed (R65). -/
theorem OpcodeRow.opcodeOf_iff (h : OpcodeRow n op i) (e : BitVec 3) :
    op = (opcodeOf e i).toNat ↔ (op % 4 = 1 → op = e.toNat) := by
  cases h <;> simp [opcodeOf]

/-- Only the operand of SkipIfNegative and Stop can come back changed (R71). -/
theorem OpcodeRow.getOperand_iff (h : OpcodeRow n op i) : n = getOperand i ↔ (op % 4 = 3 → n.toNat = 0) := by
  have hzero : n = 0#5 ↔ n.toNat = 0 := BitVec.toNat_inj.symm
  cases h <;> simp [getOperand, hzero]

/-- The canonical words (R75): those packed from the opcode and the operand of their own instruction. -/
theorem encode_decode_eq_iff (hF : 8 ≤ F) (hFW : F ≤ W) (e : BitVec 3) (w : BitVec W) :
    encode W F e (decode F w) = w ↔
      w.toNat / 2 ^ F = 0 ∧ w.toNat % 2 ^ (F - 3) / 32 = 0 ∧
      (w.toNat / 2 ^ (F - 3) % 4 = 1 → w.toNat / 2 ^ (F - 3) % 8 = e.toNat) ∧
      (w.toNat / 2 ^ (F - 3) % 4 = 3 → w.toNat % 32 = 0) := by
  have hrow := decode_row F w
  rw [encode_eq_packWord (decode_isRuntime F w), packWord_eq_iff hF hFW, ← BitVec.toNat_inj, opcodeBits_toNat,
    hrow.opcodeOf_iff, hrow.getOperand_iff, opcode_mod_four, low5_toNat]

/-- Settles O10; the second part is O9 on the decoded instruction, which is a well-formed run-time one. -/
theorem encodeAfterDecodeIsCanonical : Obligations.EncodeAfterDecodeIsCanonical := by
  intro W F hF hFW e he w
  refine ⟨encode_decode_eq_iff hF hFW e w, ?_⟩
  rw [decode_encode (decode_isRuntime F w) hF hFW he, Instr.reduce_of_wellFormed ((decode_row F w).wellFormed W)]

/-! ## The statements about single words -/

/-- Settles O2; an instruction register is the field of itself widened. -/
theorem decodeReadsOpcodeAndOperand : Obligations.DecodeReadsOpcodeAndOperand := by
  intro W F hF hFW
  refine ⟨fun w => ?_, fun ir => ?_⟩
  · rw [← low5_toNat]
    exact (decode_row F w).eq_ite
  · rw [← decode_field hF (ir.setWidth W), field_setWidth hFW]

/-- Settles O3. -/
theorem decodeIsTotal : Obligations.DecodeIsTotal := fun W F _ _ w =>
  ⟨decode_isRuntime F w, (decode_row F w).wellFormed W, decode_eq_stop_iff⟩

/-- Settles O4: `decode` reads the opcode and the low five bits, and no operand where the opcode is 3 or 7. -/
theorem ignoredBitsHaveNoEffect : Obligations.IgnoredBitsHaveNoEffect := by
  intro W F _ _
  refine ⟨fun w w' => ?_, decode_zero W F⟩
  have hlow : w.toNat % 32 = w'.toNat % 32 → low5 w = low5 w' := fun h =>
    BitVec.eq_of_toNat_eq (by rw [low5_toNat, low5_toNat, h])
  refine ⟨fun ho hn => decode_congr (BitVec.eq_of_toNat_eq ?_) (hlow hn), fun h h' hn => ?_, fun h h' => ?_,
    fun h h' => ?_⟩
  · rw [opcodeBits_toNat, opcodeBits_toNat, ho]
  · rw [decode_of_subtract_opcode h, decode_of_subtract_opcode h', hlow hn]
  · rw [decode_eq_skipIfNegative_iff.mpr h, decode_eq_skipIfNegative_iff.mpr h']
  · rw [decode_eq_stop_iff.mpr h, decode_eq_stop_iff.mpr h']

theorem decode_packWord_subtract (hF : 8 ≤ F) (hFW : F ≤ W) {e : BitVec 3} (he : e = 0b001#3 ∨ e = 0b101#3)
    (n : Addr) : decode F (packWord W F e n) = .subtract n.toNat := by
  rw [decode_packWord hF hFW]
  rcases he with rfl | rfl <;> rfl

/-- A Subtract replaces `ir` by the re-fetch and does not read it. -/
theorem Engine.subtract_withIr (a : Int) (s : Engine.State W F) (ir : BitVec F) :
    Engine.subtract a { s with ir := ir } = Engine.subtract a s := rfl

/-- A step with a Subtract pattern in `ir`, whichever of the two. -/
theorem Engine.step_packWord_subtract (hF : 8 ≤ F) {e : BitVec 3} (he : e = 0b001#3 ∨ e = 0b101#3)
    (s : Engine.State W F) (n : Addr) :
    Engine.step { s with ir := packWord F F e n } = Engine.subtract n.toNat s := by
  rw [Engine.step, decode_packWord_subtract hF le_rfl he]
  exact Engine.subtract_withIr _ s _

/-- Settles O5. -/
theorem subtractPatternsAreOneInstruction : Obligations.SubtractPatternsAreOneInstruction := by
  intro W F hF hFW
  refine ⟨fun n => ⟨?_, ?_⟩, fun e a => ?_, fun s n => ?_⟩
  · exact decode_packWord_subtract hF hFW (.inl rfl) n
  · exact decode_packWord_subtract hF hFW (.inr rfl) n
  · rw [← opcodeBits_toNat, encode, opcodeBits_packWord hF hFW]
  · rw [Engine.step_packWord_subtract hF (.inl rfl), Engine.step_packWord_subtract hF (.inr rfl)]

/-- Settles O7: the opcode column and the masked operand of each variant, as numbers. -/
theorem encodePacksFields : Obligations.EncodePacksFields := by
  intro W F hF hFW e a
  have hnum : ∀ i : Instr, i.isRuntime = true →
      ((encode W F e i).toNat : Int) = (opcodeOf e i).toNat * 2 ^ (F - 3) + (getOperand i).toNat := fun i hi => by
    rw [encode_toNat hi hF hFW]
    push_cast
    rfl
  have hmask : ((maskAddr a).toNat : Int) = a % 32 := maskAddr_toNat a
  refine ⟨?_, ?_, ?_, ?_, ?_, ?_, ?_⟩
  · simpa [opcodeOf, getOperand, hmask] using hnum (.jump a) rfl
  · simpa [opcodeOf, getOperand, hmask] using hnum (.relativeJump a) rfl
  · simpa [opcodeOf, getOperand, hmask] using hnum (.negate a) rfl
  · simpa [opcodeOf, getOperand, hmask] using hnum (.store a) rfl
  · simpa [opcodeOf, getOperand, hmask] using hnum (.subtract a) rfl
  · exact encode_toNat (i := .skipIfNegative) rfl hF hFW e
  · exact encode_toNat (i := .stop) rfl hF hFW e

/-- Settles O8: the encoding is `word(v)`, and every decoded instruction is a run-time one. -/
theorem absoluteValueEncodesAsLiteral : Obligations.AbsoluteValueEncodesAsLiteral := by
  intro W F e hW
  refine ⟨fun v hfit => ?_, fun w v hd => ?_⟩
  · have hnum : ((encode W F e (.absoluteValue v)).toNat : Int) = v % 2 ^ W := word_toNat v
    simp only [valueFits, Bool.and_eq_true, decide_eq_true_eq] at hfit
    obtain ⟨hlo, hhi⟩ := hfit
    exact ⟨hnum, fun h0 => hnum.trans (Int.emod_eq_of_lt h0 hhi), BitVec.toInt_ofInt_eq_self hW hlo⟩
  · have hrun := decode_isRuntime F w
    rw [hd] at hrun
    cases hrun

/-- Settles O1, by evaluation of `decode` on the ten words. -/
theorem knownWordsDecode : Obligations.KnownWordsDecode := by
  unfold Obligations.KnownWordsDecode
  decide

/-- Settles O6. -/
theorem getOperandMasks : Obligations.GetOperandMasks :=
  ⟨fun a => ⟨maskAddr_toNat a, maskAddr_toNat a, maskAddr_toNat a, maskAddr_toNat a, maskAddr_toNat a⟩,
    rfl, rfl, fun _ => rfl⟩

/-! ## The transition table of R93, read off `ir` -/

namespace Engine

theorem negated_toNat (v : BitVec W) : ((negated v).toNat : Int) = (-v.toInt) % 2 ^ W := word_toNat _

theorem difference_toNat (acc v : BitVec W) : ((difference acc v).toNat : Int) = (acc.toInt - v.toInt) % 2 ^ W :=
  word_toNat _

theorem isNegative_iff {w : BitVec W} : isNegative w = true ↔ w.toInt < 0 := decide_eq_true_iff

theorem operandValue_addr (s : State W F) (n : Addr) : operandValue s n.toNat = s.mem.read n := by
  rw [operandValue, maskAddr_of_addr]

/-- An instruction register has no bits above its opcode, so it decodes by the row of `ir / 2^(F-3)`. -/
theorem decode_ir_row (hF : 8 ≤ F) {ir : BitVec F} (hop : op = ir.toNat / 2 ^ (F - 3)) (hn : n.toNat = ir.toNat % 32) :
    OpcodeRow n op (decode F ir) := by
  have hlt : ir.toNat / 2 ^ (F - 3) < 8 :=
    Nat.div_lt_of_lt_mul (by rw [Nat.mul_comm, ← (fieldWidth_pow hF).1]; exact ir.isLt)
  have hlow : low5 ir = n := BitVec.eq_of_toNat_eq ((low5_toNat ir).trans hn.symm)
  have hrow := decode_row F ir
  rwa [Nat.mod_eq_of_lt hlt, ← hop, hlow] at hrow

end Engine

/-! The accumulator', program_counter' and memory' columns of R93, by the opcode and the operand word. -/

namespace OpcodeRow

open Engine

theorem updated_acc_toNat (h : OpcodeRow n op i) (s : State W F) :
    ((updated i s).acc.toNat : Int) =
      if op = 2 then (-(s.mem.read n).toInt) % 2 ^ W
      else if op % 4 = 1 then (s.acc.toInt - (s.mem.read n).toInt) % 2 ^ W else s.acc.toNat := by
  cases h <;> simp [updated, operandValue_addr, negated_toNat, difference_toNat]

theorem nextPc_toNat (h : OpcodeRow n op i) (hrun : op ≠ 7) (s : State W F) :
    ((nextPc i s).toNat : Int) =
      (if op = 0 then ((s.mem.read n).toNat : Int)
        else if op = 4 then (s.pc.toNat : Int) + (s.mem.read n).toInt
        else if op = 3 then (s.pc.toNat : Int) + (if s.acc.toInt < 0 then 2 else 1)
        else (s.pc.toNat : Int) + 1) % 32 := by
  cases h with
  | stop => exact absurd rfl hrun
  | jump => simp [nextPc, operandValue_addr, low5_toNat]
  | relativeJump => simp [nextPc, operandValue_addr, pcPlus_toNat, sval]
  | skipIfNegative => simp [nextPc, pcPlus_toNat, isNegative_iff]
  | subtract | negate | subtractAlias | store => exact pcPlus_toNat s.pc 1

theorem updated_read (h : OpcodeRow n op i) (s : State W F) (b : Addr) :
    (updated i s).mem.read b = if op = 6 ∧ b = n then s.acc else s.mem.read b := by
  cases h with
  | store => simp [updated, Memory.read_write]
  | jump | subtract | negate | skipIfNegative | relativeJump | subtractAlias | stop => rfl

end OpcodeRow

namespace Engine

theorem step_of_stop {s : State W F} (h : decode F s.ir = .stop) : step s = .stopped s.pc := by
  rw [step, h, dispatch_eq]
  rfl

/-- A step that does not meet a Stop answers the update continued at the new program counter. -/
theorem step_of_ne_stop {s : State W F} (h : decode F s.ir ≠ .stop) :
    step s = .state ((updated (decode F s.ir) s).continueAt (nextPc (decode F s.ir) s)) := by
  rw [step, dispatch_eq, if_pos]
  rw [decode_isRuntime, Bool.true_and, bne_iff_ne]
  exact h

end Engine

/-- Settles O27, column by column of the state a step answers. -/
theorem engineFollowsTransitionTable : Obligations.EngineFollowsTransitionTable := by
  rintro W F hF - s op n v hop hn rfl
  have hrow : OpcodeRow n op (decode F s.ir) := Engine.decode_ir_row hF hop hn
  refine ⟨fun h => Engine.step_of_stop (hrow.eq_stop_iff.mpr h),
    fun h => ⟨_, Engine.step_of_ne_stop (mt hrow.eq_stop_iff.mp h), ?_⟩⟩
  exact ⟨hrow.updated_acc_toNat s, hrow.nextPc_toNat h s, hrow.updated_read s, field_toNat F _⟩

end Sys2Proof

/-! PROOFS. The execution cycle (40_execution_cycle): a step is the dispatch of the decoded instruction, ends in a state or
in `Stopped` at its own program counter (R96, R97), and writes one word at most (R98); the bounded runner, as a count of the
transitions before a Stop (R104 to R108). -/

namespace Sys2Proof

variable {W F : Nat}

/-! ## The arithmetic of the program counter (R94) -/

/-- The signed reading of a word keeps its low five bits, as 32 divides `2^W`. -/
theorem toInt_emod_32 (hW : 5 ≤ W) (v : BitVec W) : v.toInt % 32 = (v.toNat : Int) % 32 := by
  have hdvd : (32 : Int) ∣ ((2 ^ W : Nat) : Int) := Int.natCast_dvd_natCast.mpr (pow_dvd_pow 2 hW)
  have hmod : v.toInt ≡ (v.toNat : Int) [ZMOD ((2 ^ W : Nat) : Int)] := by
    rw [BitVec.toInt_eq_toNat_bmod]
    exact Int.bmod_emod
  exact hmod.of_dvd hdvd

/-- The low bits of a `W`-bit wrapping sum are the sum modulo 32. -/
theorem low5_setWidth_add_toNat (hW : 5 ≤ W) (pc : Addr) (v : BitVec W) :
    (low5 (pc.setWidth W + v)).toNat = (pc.toNat + v.toNat) % 32 := by
  have hdvd : 32 ∣ 2 ^ W := pow_dvd_pow 2 hW
  rw [low5_toNat, BitVec.toNat_add, BitVec.toNat_setWidth, Nat.mod_mod_of_dvd _ hdvd, Nat.add_mod,
    Nat.mod_mod_of_dvd _ hdvd, ← Nat.add_mod]

namespace Engine

theorem pcPlus_congr (pc : Addr) {y z : Int} (h : y % 32 = z % 32) : pcPlus pc y = pcPlus pc z :=
  maskAddr_congr (by rw [Int.add_emod, h, ← Int.add_emod])

theorem pcPlus_eq_low5_add (hW : 5 ≤ W) (pc : Addr) (v : BitVec W) :
    pcPlus pc v.toNat = low5 (pc.setWidth W + v) := by
  apply BitVec.eq_of_toNat_eq
  rw [low5_setWidth_add_toNat hW]
  have hsum := pcPlus_toNat pc v.toNat
  omega

end Engine

/-- Settles O22: signed value, unsigned value and low five bits of a word agree modulo 32. -/
theorem onlyLowBitsReachTheProgramCounter : Obligations.OnlyLowBitsReachTheProgramCounter := by
  intro W hW pc v
  have hsigned : Engine.pcPlus pc v.toInt = Engine.pcPlus pc v.toNat := Engine.pcPlus_congr pc (toInt_emod_32 hW v)
  have hlow : Engine.pcPlus pc v.toNat = Engine.pcPlus pc (v.toNat % 32 : Nat) := Engine.pcPlus_congr pc (by omega)
  exact ⟨hsigned.trans hlow, hsigned.trans (Engine.pcPlus_eq_low5_add hW pc v)⟩

/-! ## How a step ends (R96, R97) -/

namespace Engine

variable {s : State W F} {i : Instr} {a : Addr}

theorem dispatch_stopped (h : dispatch i s = .stopped a) : a = s.pc := by
  rw [dispatch_eq] at h
  split at h
  · cases h
  · exact (Result.stopped.inj h).symm

theorem step_eq_stopped_iff : step s = .stopped a ↔ decode F s.ir = .stop ∧ a = s.pc := by
  by_cases hstop : decode F s.ir = .stop
  · simp [step_of_stop hstop, hstop, eq_comm]
  · simp [step_of_ne_stop hstop, hstop]

theorem step_state_or_stopped (s : State W F) : (∃ t, step s = .state t) ∨ step s = .stopped s.pc := by
  by_cases hstop : decode F s.ir = .stop
  · exact .inr (step_of_stop hstop)
  · exact .inl ⟨_, step_of_ne_stop hstop⟩

end Engine

namespace Machine

variable {s t : State} {i : Instr}

theorem step_eq_stopped_iff {a : Addr} : step s = .fault (.stopped a) ↔ Engine.step s = .stopped a := by
  rw [step_eq_hostOutcome, Engine.hostOutcome_fault]
  simp

/-- Every meaning is the engine's dispatch of some instruction; for an AbsoluteValue, of the one its bits spell (log
entry 4). -/
theorem exec_eq_hostOutcome_dispatch (i : Instr) (s : State) :
    ∃ j, exec i s = hostOutcome (Engine.dispatch j s) := by
  cases i with
  | absoluteValue v => exact ⟨decode 16 (word 32 v), rfl⟩
  | jump a | relativeJump a | negate a | store a | subtract a => exact ⟨_, exec_eq_hostOutcome rfl s⟩
  | skipIfNegative | stop => exact ⟨_, exec_eq_hostOutcome rfl s⟩

/-- A run-time variant that answers a state is not Stop, and the state is its update continued (R93). -/
theorem exec_next (hi : i.isRuntime = true) (h : exec i s = .next t) :
    i ≠ .stop ∧ t = (Engine.updated i s).continueAt (Engine.nextPc i s) := by
  rw [exec_eq_hostOutcome hi, Engine.hostOutcome_next] at h
  exact (Engine.dispatch_state h).2

end Machine

/-- Settles O28: a Stop in `ir` is signalled, and every other `ir` answers a state. -/
theorem stepNeverGetsStuck : Obligations.StepNeverGetsStuck := by
  refine ⟨fun W F s => Engine.step_state_or_stopped s, fun s => ?_⟩
  obtain ⟨t, ht⟩ | hstop := Engine.step_state_or_stopped s
  · exact .inl ⟨t, Machine.step_next.mpr ht⟩
  · exact .inr (Machine.step_eq_stopped_iff.mpr hstop)

/-- Settles O29: every meaning is a dispatch, whose two-way result is a state or `Stopped` at the program counter. -/
theorem noMeaningRefuses : Obligations.NoMeaningRefuses := by
  intro i s
  obtain ⟨j, hj⟩ := Machine.exec_eq_hostOutcome_dispatch i s
  rw [hj]
  refine ⟨fun r => Engine.hostOutcome_refused, fun f hf => ?_⟩
  obtain ⟨a, ha, rfl⟩ := Engine.hostOutcome_fault.mp hf
  rw [Engine.dispatch_stopped ha]

/-- Settles O25; the decoded instruction is a row of the opcode table. -/
theorem stepRunsDecodedInstruction : Obligations.StepRunsDecodedInstruction := by
  refine ⟨fun s => rfl, ?_⟩
  rintro s i hfetch rfl
  have hir : decode 16 s.ir = decode 16 (s.mem.read s.pc) := hfetch.decode_ir (by omega)
  refine ⟨decode_isRuntime _ _, (decode_row _ _).wellFormed 32, ?_⟩
  rw [Machine.step, hir]

/-- Settles O26. -/
theorem referenceStepIsEngineStep : Obligations.ReferenceStepIsEngineStep := Machine.step_eq_hostOutcome

/-! ## What a step leaves unchanged (R98) -/

namespace Engine

/-- A step changes no word but the one at the operand of the decoded instruction. -/
theorem step_read_of_ne_operand {s t : State W F} {b : Addr} (h : step s = .state t)
    (hb : b ≠ getOperand (decode F s.ir)) : t.mem.read b = s.mem.read b := by
  refine step_read_of_not_storesTo h ?_
  rintro ⟨a, hstore, rfl⟩
  rw [hstore] at hb
  exact hb rfl

end Engine

/-- Settles O19, by the update each variant makes before it continues. -/
theorem stepChangesNothingElse : Obligations.StepChangesNothingElse := by
  refine ⟨fun a s t h => ?_, fun a s t h b => ?_, fun a s t h => ?_, fun s t h => ?_, fun s t h b => ?_,
    fun W F s t h b => Engine.step_read_of_ne_operand h⟩
  · rcases h with h | h | h <;> obtain ⟨-, rfl⟩ := Machine.exec_next rfl h <;> exact ⟨rfl, fun _ => rfl⟩
  · rcases h with h | h <;> obtain ⟨-, rfl⟩ := Machine.exec_next rfl h <;> rfl
  · obtain ⟨-, rfl⟩ := Machine.exec_next rfl h
    exact ⟨rfl, fun b hb => Memory.read_write_of_ne _ _ hb⟩
  · exact (Machine.exec_next rfl h).1 rfl
  · exact Engine.step_read_of_ne_operand (Machine.step_next.mp h)

/-! ## The bounded runner (R104 to R108) -/

namespace Engine

variable {s t u : State W F} {a : Addr} {fuel limit m n k : Nat}

@[simp] theorem runFrom_zero (limit : Nat) (s : State W F) : runFrom limit 0 s = (s, .iterationsExceeded s limit) := rfl

theorem runFrom_succ_of_state (h : step s = .state t) : runFrom limit (fuel + 1) s = runFrom limit fuel t := by
  simp [runFrom, h]

theorem runFrom_succ_of_stopped (h : step s = .stopped a) : runFrom limit (fuel + 1) s = (s, .stopped a) := by
  simp [runFrom, h]

theorem afterSteps_succ_of_stopped (h : step s = .stopped a) (k : Nat) : afterSteps (k + 1) s = none := by
  simp [afterSteps, h]

/-- The loop stops exactly at a Stop that one of the calls it may make meets. -/
theorem runFrom_eq_stopped_iff :
    runFrom limit fuel s = (t, .stopped a) ↔ ∃ j < fuel, afterSteps j s = some t ∧ step t = .stopped a := by
  induction fuel generalizing s with
  | zero => simp
  | succ fuel ih =>
    rw [Nat.exists_lt_succ_left, afterSteps_zero]
    cases hs : step s with
    | state s' =>
      have hnow : ¬ (some s = some t ∧ step t = .stopped a) := by
        rintro ⟨⟨⟩, ht⟩
        rw [hs] at ht
        cases ht
      simp only [runFrom_succ_of_state hs, afterSteps_succ_state hs, ih, hnow, false_or]
    | stopped b =>
      simp only [runFrom_succ_of_stopped hs, afterSteps_succ_of_stopped hs]
      constructor
      · rintro ⟨⟩
        exact .inl ⟨rfl, hs⟩
      · rintro (⟨⟨⟩, ht⟩ | ⟨j, -, ⟨⟩, -⟩)
        rw [Result.stopped.inj (hs.symm.trans ht)]

/-- The loop runs out of calls exactly when each of them answers a state. -/
theorem runFrom_eq_iterationsExceeded_iff :
    runFrom limit fuel s = (t, .iterationsExceeded u k) ↔ afterSteps fuel s = some t ∧ u = t ∧ k = limit := by
  induction fuel generalizing s with
  | zero =>
    simp only [runFrom_zero, afterSteps_zero, Prod.mk.injEq, RunOutcome.iterationsExceeded.injEq, Option.some.injEq]
    constructor <;> (rintro ⟨rfl, rfl, rfl⟩; exact ⟨rfl, rfl, rfl⟩)
  | succ fuel ih =>
    cases hs : step s with
    | state s' => rw [runFrom_succ_of_state hs, afterSteps_succ_state hs, ih]
    | stopped b => simp [runFrom_succ_of_stopped hs, afterSteps_succ_of_stopped hs]

/-- After `m` transitions the loop goes on as from the state they reach. -/
theorem runFrom_add (h : afterSteps m s = some u) : runFrom limit (m + n) s = runFrom limit n u := by
  induction m generalizing s with
  | zero => rw [Option.some.inj h, Nat.zero_add]
  | succ m ih =>
    obtain ⟨s', hs, hrest⟩ := afterSteps_succ_eq_some.mp h
    rw [Nat.add_right_comm, runFrom_succ_of_state hs, ih hrest]

end Engine

/-- Settles O36, by induction on the calls left (`runFrom_eq_stopped_iff`, `runFrom_eq_iterationsExceeded_iff`). -/
theorem runBoundedCountsCalls : Obligations.RunBoundedCountsCalls := fun _ _ _ _ _ =>
  ⟨fun _ => Engine.runFrom_eq_stopped_iff, fun _ _ => Engine.runFrom_eq_iterationsExceeded_iff⟩

/-- Settles O30; the run's clause is O36 for the outcome alone. -/
theorem stoppedExactlyAtStop : Obligations.StoppedExactlyAtStop := by
  refine ⟨fun W F s a => Engine.step_eq_stopped_iff, fun s a => ?_, fun W F s m a => ?_⟩
  · rw [Machine.step_eq_stopped_iff, Engine.step_eq_stopped_iff]
  · have hrun : ∀ t, Engine.runBounded s m = (t, .stopped a) ↔
        ∃ j < m, Engine.afterSteps j s = some t ∧ Engine.step t = .stopped a := fun t => Engine.runFrom_eq_stopped_iff
    constructor
    · intro h
      obtain ⟨j, hj, hrest⟩ := (hrun _).mp (Prod.ext rfl h)
      exact ⟨j, _, hj, hrest⟩
    · rintro ⟨j, t, hj, hrest⟩
      rw [(hrun t).mpr ⟨j, hj, hrest⟩]

/-- Settles O38: both sides are the loop from `s1` with `m2` calls left, which stops alike under either limit. -/
theorem runBoundedComposes : Obligations.RunBoundedComposes := by
  intro W F s s1 t m1 m2 hcut
  obtain ⟨hs1, -, -⟩ := Engine.runFrom_eq_iterationsExceeded_iff.mp hcut
  have hrun : Engine.runBounded s (m1 + m2) = Engine.runFrom (m1 + m2) m2 s1 := Engine.runFrom_add hs1
  rw [hrun, Engine.runBounded]
  refine ⟨fun a => ?_, ?_⟩
  · rw [Engine.runFrom_eq_stopped_iff, Engine.runFrom_eq_stopped_iff]
  · simp only [Engine.runFrom_eq_iterationsExceeded_iff, and_self, and_true]

/-- Settles O51: the state that met the Stop is the final one (R107), and its step is `Stopped` only for that reason. -/
theorem stoppedRunEndsAtItsStop : Obligations.StoppedRunEndsAtItsStop := by
  intro W F s t m a hrun
  obtain ⟨-, -, -, hstop⟩ := Engine.runFrom_eq_stopped_iff.mp hrun
  exact ⟨hstop, Engine.step_eq_stopped_iff.mp hstop⟩

/-- Settles O37. -/
theorem runBoundedZeroMakesNoStep : Obligations.RunBoundedZeroMakesNoStep := fun _ _ s => Engine.runFrom_zero 0 s

end Sys2Proof

/-! PROOFS. The unconditional transfers (41_jumps): the target Jump and RelativeJump take from memory (R110, R112), and the
transfers that lead back to the state they start from (R99). The rules of the first part hold for every variant. -/

namespace Sys2Proof

variable {W F : Nat} {n : Addr} {i : Instr} {a : Int}

/-! ## The reference word of a row of R64, and the host's reading of a dispatch -/

theorem decode_packWord_of_row (hF : 8 ≤ F) (hFW : F ≤ W) {op : BitVec 3} (h : OpcodeRow n op.toNat i) :
    decode F (packWord W F op n) = i := by
  have hrow := decode_row F (packWord W F op n)
  rw [← opcodeBits_toNat, opcodeBits_packWord hF hFW, low5_packWord hF hFW] at hrow
  exact hrow.eq_ite.trans h.eq_ite.symm

/-- The reference word of an instruction with opcode `op`: the operand on top of `op` at bit 13 (R70, `F = 16`). -/
theorem encodeReference_toNat {op : BitVec 3} (hi : i.isRuntime = true) (hop : opcodeOf subEncReference i = op) :
    (encodeReference i).toNat = op.toNat * 2 ^ 13 + (getOperand i).toNat := by
  rw [← hop]
  exact encode_toNat hi (by decide) (by decide) subEncReference

/-- A run-time variant that continues in the engine continues in the same state under `exec`. -/
theorem Machine.exec_of_dispatch {s t : Machine.State} (hi : i.isRuntime = true) (h : Engine.dispatch i s = .state t) :
    Machine.exec i s = .next t := by
  rw [Machine.exec_eq_hostOutcome hi, Engine.hostOutcome_next, h]

namespace Engine

/-! ## The state a transfer answers -/

theorem dispatch_jump (a : Int) (s : State W F) :
    dispatch (.jump a) s = .state (s.continueAt (low5 (s.mem.read (maskAddr a)))) := rfl

theorem dispatch_relativeJump (a : Int) (s : State W F) :
    dispatch (.relativeJump a) s = .state (s.continueAt (pcPlus s.pc (s.mem.read (maskAddr a)).toInt)) := rfl

theorem continueAt_afterJump (n : Addr) (s : State W F) : AfterJump n s (s.continueAt (low5 (s.mem.read n))) :=
  ⟨low5_toNat _, field_toNat F _, rfl, rfl⟩

/-- Adding the signed word is adding its low five bits, the second form of the sum in R112. -/
theorem pcPlus_toInt_toNat (hW : 5 ≤ W) (pc : Addr) (v : BitVec W) :
    (pcPlus pc v.toInt).toNat = (pc.toNat + v.toNat % 32) % 32 := by
  have hsum := pcPlus_toNat pc v.toInt
  have hlow := toInt_emod_32 hW v
  omega

theorem continueAt_afterRelativeJump (hW : 5 ≤ W) (n : Addr) (s : State W F) :
    AfterRelativeJump n s (s.continueAt (pcPlus s.pc (s.mem.read n).toInt)) :=
  ⟨pcPlus_toNat _ _, pcPlus_toInt_toNat hW _ _, field_toNat F _, rfl, rfl⟩

/-! ## Transfers to themselves -/

theorem pcPlus_of_emod_eq_zero (pc : Addr) {z : Int} (hz : z % 32 = 0) : pcPlus pc z = pc := by
  rw [pcPlus_congr pc (z := 0) hz, pcPlus, add_zero, maskAddr_of_addr]

/-- The re-fetch at the program counter gives back what `ir` holds already (R25). -/
theorem FetchInv.continueAt_pc {s : State W F} (h : FetchInv s) : s.continueAt s.pc = s :=
  state_ext rfl rfl rfl h.symm

theorem dispatch_jump_to_self {s : State W F} (h : FetchInv s)
    (htarget : (s.mem.read (maskAddr a)).toNat % 32 = s.pc.toNat) : dispatch (.jump a) s = .state s := by
  have hpc : low5 (s.mem.read (maskAddr a)) = s.pc := BitVec.eq_of_toNat_eq ((low5_toNat _).trans htarget)
  rw [dispatch_jump, hpc, h.continueAt_pc]

theorem dispatch_relativeJump_to_self {s : State W F} (h : FetchInv s)
    (hoffset : (s.mem.read (maskAddr a)).toInt % 32 = 0) : dispatch (.relativeJump a) s = .state s := by
  rw [dispatch_relativeJump, pcPlus_of_emod_eq_zero s.pc hoffset, h.continueAt_pc]

end Engine

/-- Settles O11: the state continues at the low five bits of the operand word. -/
theorem jumpTakesTargetFromMemory : Obligations.JumpTakesTargetFromMemory := by
  intro a
  refine ⟨maskAddr_toNat a, encodeReference_toNat (op := 0#3) rfl rfl, ?_, fun s => ?_, fun W F _ _ s => ?_⟩
  · exact decode_packWord_of_row (W := 32) (op := 0#3) (by decide) (by decide) .jump
  · exact ⟨_, Machine.exec_of_dispatch rfl (Engine.dispatch_jump a s), Engine.continueAt_afterJump _ s⟩
  · exact ⟨_, Engine.dispatch_jump a s, Engine.continueAt_afterJump _ s⟩

/-- Settles O12: the two forms of the sum agree because 32 divides `2^W` (`toInt_emod_32`). -/
theorem relativeJumpAddsSignedOffset : Obligations.RelativeJumpAddsSignedOffset := by
  intro a
  refine ⟨maskAddr_toNat a, encodeReference_toNat (op := 4#3) rfl rfl, ?_, fun s => ?_, fun W F hF hFW s => ?_⟩
  · exact decode_packWord_of_row (W := 32) (op := 4#3) (by decide) (by decide) .relativeJump
  · exact ⟨_, Machine.exec_of_dispatch rfl (Engine.dispatch_relativeJump a s),
      Engine.continueAt_afterRelativeJump (by decide) _ s⟩
  · exact ⟨_, Engine.dispatch_relativeJump a s, Engine.continueAt_afterRelativeJump (by omega) _ s⟩

/-- Settles O23: the new program counter is the old one, and the re-fetch there changes nothing under the fetch invariant. -/
theorem jumpToItselfChangesNothing : Obligations.JumpToItselfChangesNothing := fun _ _ h =>
  ⟨fun htarget => Machine.exec_of_dispatch rfl (Engine.dispatch_jump_to_self h htarget),
    fun hoffset => Machine.exec_of_dispatch rfl (Engine.dispatch_relativeJump_to_self h hoffset)⟩

end Sys2Proof

/-! PROOFS. Negate and Subtract (42_negate_subtract): the state each answers (R120, R123), and the arithmetic of a word modulo
`2^W` that both results are in (R127, R128). -/

namespace Sys2Proof

variable {W F : Nat}

/-! ## A word stands for an integer modulo `2^W` (R12, decisions D5 and D6) -/

theorem word_congr {y z : Int} (h : y ≡ z [ZMOD 2 ^ W]) : word W y = word W z := by
  apply BitVec.eq_of_toNat_eq
  have hval : ((word W y).toNat : Int) = (word W z).toNat := by
    rw [word_toNat, word_toNat]
    exact h
  exact Int.natCast_inj.mp hval

/-- The signed value of `word(z)` is the integer in range that is `z` modulo `2^W`. -/
theorem word_toInt_of_modEq (hW : 0 < W) {y z : Int} (h : z ≡ y [ZMOD 2 ^ W]) (hlo : -2 ^ (W - 1) ≤ y)
    (hhi : y < 2 ^ (W - 1)) : (word W z).toInt = y := by
  rw [word_congr h]
  exact BitVec.toInt_ofInt_eq_self hW hlo hhi

/-- The two readings of a word agree modulo `2^W`. -/
theorem toInt_modEq_toNat (v : BitVec W) : v.toInt ≡ v.toNat [ZMOD 2 ^ W] := by
  have hpow : ((2 ^ W : Nat) : Int) = 2 ^ W := Nat.cast_pow 2 W
  rw [BitVec.toInt_eq_toNat_bmod, ← hpow]
  exact Int.bmod_emod

theorem two_pow_width (hW : 0 < W) : (2 : Int) ^ W = 2 * 2 ^ (W - 1) := (mul_pow_sub_one hW.ne' 2).symm

namespace Engine

/-! ## Wrapping (R127) -/

theorem difference_toInt_of_fits (hW : 0 < W) {acc v : BitVec W} (hlo : -2 ^ (W - 1) ≤ acc.toInt - v.toInt)
    (hhi : acc.toInt - v.toInt < 2 ^ (W - 1)) : (difference acc v).toInt = acc.toInt - v.toInt :=
  word_toInt_of_modEq hW rfl hlo hhi

/-- Above the range taking off one `2^W` is enough, as the exact difference is below `2^W`. -/
theorem difference_toInt_of_above (hW : 0 < W) {acc v : BitVec W} (h : 2 ^ (W - 1) ≤ acc.toInt - v.toInt) :
    (difference acc v).toInt = acc.toInt - v.toInt - 2 ^ W := by
  have hacc : acc.toInt < 2 ^ (W - 1) := acc.toInt_lt
  have hv := v.le_toInt
  have hpow := two_pow_width hW
  exact word_toInt_of_modEq hW (Int.modEq_sub_modulus_iff.mpr rfl) (by omega) (by omega)

/-- Below the range adding one `2^W` is enough, as the exact difference is above `-2^W`. -/
theorem difference_toInt_of_below (hW : 0 < W) {acc v : BitVec W} (h : acc.toInt - v.toInt < -2 ^ (W - 1)) :
    (difference acc v).toInt = acc.toInt - v.toInt + 2 ^ W := by
  have hacc := acc.le_toInt
  have hv : v.toInt < 2 ^ (W - 1) := v.toInt_lt
  have hpow := two_pow_width hW
  exact word_toInt_of_modEq hW (Int.modEq_add_modulus_iff.mpr rfl) (by omega) (by omega)

theorem negated_toInt_of_ne_min (hW : 0 < W) {v : BitVec W} (h : v.toInt ≠ -2 ^ (W - 1)) :
    (negated v).toInt = -v.toInt := by
  have hlo := v.le_toInt
  have hhi : v.toInt < 2 ^ (W - 1) := v.toInt_lt
  exact word_toInt_of_modEq hW rfl (by omega) (by omega)

/-- The most negative word: `2^(W-1)` and `-2^(W-1)` have one word. -/
theorem negated_of_eq_min (hW : 0 < W) {v : BitVec W} (h : v.toInt = -2 ^ (W - 1)) : negated v = v := by
  have hwrap : -v.toInt = v.toInt + 2 ^ W := by have := two_pow_width hW; omega
  calc negated v = word W (v.toInt + 2 ^ W) := congrArg (word W) hwrap
    _ = word W v.toInt := word_congr (Int.add_modulus_modEq_iff.mpr rfl)
    _ = v := BitVec.ofInt_toInt

/-! ## The results on the unsigned reading (R128) -/

theorem negated_toNat_unsigned (v : BitVec W) : ((negated v).toNat : Int) = (2 ^ W - v.toNat) % 2 ^ W :=
  calc ((negated v).toNat : Int) = (-v.toInt) % 2 ^ W := negated_toNat v
    _ = (-v.toNat) % 2 ^ W := (toInt_modEq_toNat v).neg
    _ = (2 ^ W - v.toNat) % 2 ^ W := Int.modEq_modulus_add_iff.mpr rfl

theorem difference_toNat_unsigned (acc v : BitVec W) :
    ((difference acc v).toNat : Int) = ((acc.toNat : Int) - v.toNat) % 2 ^ W :=
  (difference_toNat acc v).trans ((toInt_modEq_toNat acc).sub (toInt_modEq_toNat v))

/-! ## The state an arithmetic instruction answers (R120, R123) -/

theorem pcPlus_one_toNat (pc : Addr) : (pcPlus pc 1).toNat = (pc.toNat + 1) % 32 := by
  have hsum := pcPlus_toNat pc 1
  omega

theorem dispatch_negate (a : Int) (s : State W F) :
    dispatch (.negate a) s = .state ((s.withAcc (negated (s.mem.read (maskAddr a)))).continueAt (pcPlus s.pc 1)) := rfl

theorem dispatch_subtract (a : Int) (s : State W F) :
    dispatch (.subtract a) s =
      .state ((s.withAcc (difference s.acc (s.mem.read (maskAddr a)))).continueAt (pcPlus s.pc 1)) := rfl

theorem continueAt_afterNegate (n : Addr) (s : State W F) :
    AfterNegate n s ((s.withAcc (negated (s.mem.read n))).continueAt (pcPlus s.pc 1)) :=
  ⟨negated_toNat _, pcPlus_one_toNat _, field_toNat F _, rfl⟩

theorem continueAt_afterSubtract (n : Addr) (s : State W F) :
    AfterSubtract n s ((s.withAcc (difference s.acc (s.mem.read n))).continueAt (pcPlus s.pc 1)) :=
  ⟨difference_toNat _ _, pcPlus_one_toNat _, field_toNat F _, rfl⟩

end Engine

/-- Settles O13: the accumulator takes the negated operand word, whatever it held. -/
theorem negateLoadsNegatedWord : Obligations.NegateLoadsNegatedWord := by
  intro a
  refine ⟨maskAddr_toNat a, encodeReference_toNat (op := 2#3) rfl rfl, ?_, fun s => ?_, fun W F _ _ s => ?_⟩
  · exact decode_packWord_of_row (W := 32) (op := 2#3) (by decide) (by decide) .negate
  · exact ⟨_, Machine.exec_of_dispatch rfl (Engine.dispatch_negate a s), Engine.continueAt_afterNegate _ s⟩
  · exact ⟨_, Engine.dispatch_negate a s, Engine.continueAt_afterNegate _ s⟩

/-- Settles O14: the accumulator takes its difference with the operand word; the two words differ in the opcode pattern. -/
theorem subtractTakesWordFromAccumulator : Obligations.SubtractTakesWordFromAccumulator := by
  intro a
  refine ⟨maskAddr_toNat a, encodeReference_toNat (op := 1#3) rfl rfl, ?_, ?_, fun s => ?_, fun W F _ _ s => ?_⟩
  · exact decode_packWord_subtract (W := 32) (by decide) (by decide) (.inl rfl) _
  · exact decode_packWord_subtract (W := 32) (by decide) (by decide) (.inr rfl) _
  · exact ⟨_, Machine.exec_of_dispatch rfl (Engine.dispatch_subtract a s), Engine.continueAt_afterSubtract _ s⟩
  · exact ⟨_, Engine.dispatch_subtract a s, Engine.continueAt_afterSubtract _ s⟩

/-- Settles O20: the exact difference lies between `-2^W` and `2^W`, so at most one `2^W` brings it into the signed range. -/
theorem arithmeticWraps : Obligations.ArithmeticWraps := fun _ hW acc v =>
  ⟨Engine.difference_toNat acc v, Engine.difference_toInt_of_fits hW, Engine.difference_toInt_of_above hW,
    Engine.difference_toInt_of_below hW, Engine.negated_toInt_of_ne_min hW, Engine.negated_of_eq_min hW⟩

/-- Settles O21: the results are the bit-vector operations, on which complement, double negation and restoring are laws. -/
theorem arithmeticFacts : Obligations.ArithmeticFacts := by
  intro W acc v
  refine ⟨?_, Engine.negated_toNat_unsigned v, ?_, Engine.difference_toNat_unsigned acc v, ?_⟩
  · rw [Engine.negated_eq_neg, BitVec.neg_eq_not_add]
  · rw [Engine.negated_eq_neg, Engine.negated_eq_neg, BitVec.neg_neg]
  · rw [Engine.difference_eq_sub, Engine.difference_eq_sub, Engine.negated_eq_neg, BitVec.sub_neg, BitVec.sub_add_cancel]

end Sys2Proof

/-! PROOFS. Store (43_store): the state `afterStore`, read component by component as R135 states it. -/

namespace Sys2Proof

namespace Engine

/-- The word at the operand and every other word, from the one rule for a read after a Store; the re-fetch is of the new
memory (decision D9). -/
theorem afterStore_spec {W F : Nat} (a : Int) (s : State W F) : AfterStore (maskAddr a) s (afterStore a s) := by
  refine ⟨?_, fun b hb => ?_, pcPlus_one_toNat s.pc, afterStore_ir a s, rfl⟩
  · rw [afterStore_read, if_pos rfl]
  · rw [afterStore_read, if_neg hb]

end Engine

/-- Settles O15: a Store answers `afterStore` in every state, and so does `exec`, as a Store is a run-time variant. -/
theorem storeWritesAccumulator : Obligations.StoreWritesAccumulator := by
  intro a
  refine ⟨maskAddr_toNat a, encodeReference_toNat (op := 6#3) rfl rfl, ?_, fun s => ?_, fun W F _ _ s => ?_⟩
  · exact decode_packWord_of_row (W := 32) (op := 6#3) (by decide) (by decide) .store
  · exact ⟨_, Machine.exec_of_dispatch rfl (Engine.dispatch_store a s), Engine.afterStore_spec a s⟩
  · exact ⟨_, Engine.dispatch_store a s, Engine.afterStore_spec a s⟩

end Sys2Proof

/-! PROOFS. SkipIfNegative and Stop (44_skip_stop): the sign bit of the accumulator picks the next address (R140), and
the termination signal carries the address of the Stop itself (R143). -/

namespace Sys2Proof

variable {W F : Nat}

namespace Engine

/-- A word is negative exactly when its top bit is 1 (R12). -/
theorem toInt_neg_iff_top_bit (w : BitVec W) : w.toInt < 0 ↔ w.getLsbD (W - 1) = true := by
  rw [← isNegative_iff, isNegative_eq_msb, BitVec.msb_eq_getLsbD_last]

theorem pcPlus_two_toNat (pc : Addr) : (pcPlus pc 2).toNat = (pc.toNat + 2) % 32 := by
  have hsum := pcPlus_toNat pc 2
  omega

/-- The address at which a SkipIfNegative continues: one word is passed over when the accumulator is negative. -/
theorem nextPc_skipIfNegative (s : State W F) :
    nextPc .skipIfNegative s = if s.acc.toInt < 0 then pcPlus s.pc 2 else pcPlus s.pc 1 := by
  simp only [nextPc, isNegative_iff, apply_ite (pcPlus s.pc)]

theorem dispatch_skipIfNegative (s : State W F) :
    dispatch .skipIfNegative s = .state (s.continueAt (nextPc .skipIfNegative s)) := rfl

theorem continueAt_afterSkipIfNegative (s : State W F) :
    AfterSkipIfNegative s (s.continueAt (nextPc .skipIfNegative s)) := by
  refine ⟨toInt_neg_iff_top_bit s.acc, fun hneg => ?_, fun hnonneg => ?_, field_toNat F _, rfl, rfl⟩
  · rw [continueAt_pc, nextPc_skipIfNegative, if_pos hneg, pcPlus_two_toNat]
  · rw [continueAt_pc, nextPc_skipIfNegative, if_neg hnonneg.not_gt, pcPlus_one_toNat]

theorem dispatch_stop (s : State W F) : dispatch .stop s = .stopped s.pc := rfl

end Engine

/-- Settles O16: the state continues at the address the sign of the accumulator picks, and changes nothing else. -/
theorem skipIfNegativeTestsAccumulatorSign : Obligations.SkipIfNegativeTestsAccumulatorSign := by
  refine ⟨rfl, ?_, fun _ hw => decode_eq_skipIfNegative_iff.mpr hw, fun s => ?_, fun W F _ _ s => ?_⟩
  · exact BitVec.eq_of_toNat_eq (encodeReference_toNat (op := 3#3) rfl rfl)
  · exact ⟨_, Machine.exec_of_dispatch rfl (Engine.dispatch_skipIfNegative s), Engine.continueAt_afterSkipIfNegative s⟩
  · exact ⟨_, Engine.dispatch_skipIfNegative s, Engine.continueAt_afterSkipIfNegative s⟩

/-- Settles O17: the engine's dispatch signals the program counter, and the host carries that as a fault. -/
theorem stopSignalsItsAddress : Obligations.StopSignalsItsAddress := by
  refine ⟨rfl, ?_, fun _ hw => decode_eq_stop_iff.mpr hw, fun s => ?_, fun s hs => ?_, fun _ _ => Engine.dispatch_stop⟩
  · exact BitVec.eq_of_toNat_eq (encodeReference_toNat (op := 7#3) rfl rfl)
  · rw [Machine.exec_eq_hostOutcome rfl, Engine.dispatch_stop]
    rfl
  · exact Machine.step_eq_stopped_iff.mpr (Engine.step_of_stop hs)

end Sys2Proof

/-! PROOFS. AbsoluteValue under `exec` (R150, log entry 4): the engine runs the row of R64 that the bits of the raw word spell,
so its effect is that of the row, with the opcode and the operand read off the integer. -/

namespace Sys2Proof

variable {W F op : Nat} {n : Addr} {i : Instr}

/-! ## What a row of the opcode table leaves unchanged (R98) -/

namespace OpcodeRow

open Engine

theorem updated_mem_of_ne_store (h : OpcodeRow n op i) (hop : op ≠ 6) (s : State W F) : (updated i s).mem = s.mem := by
  cases h with
  | store => exact absurd rfl hop
  | jump | subtract | negate | skipIfNegative | relativeJump | subtractAlias | stop => rfl

theorem updated_acc_of_ne_arithmetic (h : OpcodeRow n op i) (hsub : op % 4 ≠ 1) (hneg : op ≠ 2) (s : State W F) :
    (updated i s).acc = s.acc := by
  cases h with
  | subtract | subtractAlias => exact absurd rfl hsub
  | negate => exact absurd rfl hneg
  | jump | skipIfNegative | relativeJump | store | stop => rfl

end OpcodeRow

/-! ## The bits of `word(v)` -/

theorem low5_word (hW : 5 ≤ W) (v : Int) : low5 (word W v) = maskAddr v := by
  have hdvd : (32 : Int) ∣ 2 ^ W := pow_dvd_pow 2 hW
  have hword : ((word W v).toNat : Int) % 32 = v % 32 := by rw [word_toNat, Int.emod_emod_of_dvd v hdvd]
  have hmask := maskAddr_toNat v
  apply BitVec.eq_of_toNat_eq
  rw [low5_toNat]
  omega

/-- Bits `[15:13]` of the raw word are those of the integer. -/
theorem opcode_word_32 (v : Int) : (((word 32 v).toNat / 2 ^ 13 % 8 : Nat) : Int) = v / 2 ^ 13 % 8 := by
  have hword := word_toNat (W := 32) v
  omega

/-- The row of R64 the raw word of `v` spells. -/
theorem decode_word_row {v : Int} (hop : (op : Int) = v / 2 ^ 13 % 8) :
    OpcodeRow (maskAddr v) op (decode 16 (word 32 v)) := by
  have hrow := decode_row 16 (word 32 v)
  have hbits : (word 32 v).toNat / 2 ^ 13 % 8 = op := Int.natCast_inj.mp ((opcode_word_32 v).trans hop.symm)
  rwa [hbits, low5_word (by omega)] at hrow

/-! ## `exec` of the decoded word -/

theorem Engine.dispatch_of_ne_stop (hi : i.isRuntime = true) (h : i ≠ .stop) (s : Engine.State W F) :
    Engine.dispatch i s = .state ((Engine.updated i s).continueAt (Engine.nextPc i s)) := by
  rw [Engine.dispatch_eq, if_pos]
  rw [hi, Bool.true_and, bne_iff_ne]
  exact h

theorem Machine.exec_stop (s : Machine.State) : Machine.exec .stop s = .fault (.stopped s.pc) := rfl

/-- Log entry 4: AbsoluteValue means what its raw word means. -/
theorem Machine.exec_absoluteValue (v : Int) (s : Machine.State) :
    Machine.exec (.absoluteValue v) s = Machine.exec (decode 16 (word 32 v)) s :=
  (Machine.exec_eq_hostOutcome (decode_isRuntime 16 (word 32 v)) s).symm

/-- Settles O18, by the row of the opcode table that bits `[15:13]` of `v` select. -/
theorem absoluteValueExecutesAsItsBitsSpell : Obligations.AbsoluteValueExecutesAsItsBitsSpell := by
  intro v s
  obtain ⟨op, hop⟩ : ∃ op : Nat, (op : Int) = v / 2 ^ 13 % 8 := ⟨_, opcode_word_32 v⟩
  have hrow := decode_word_row hop
  rw [Machine.exec_absoluteValue]
  refine ⟨fun hrun => ?_, fun hstop => ?_⟩
  · have hne : decode 16 (word 32 v) ≠ .stop := fun h => hrun (by have := hrow.eq_stop_iff.mp h; omega)
    have hexec := Machine.exec_of_dispatch (decode_isRuntime 16 _)
      (Engine.dispatch_of_ne_stop (decode_isRuntime 16 _) hne s)
    refine ⟨_, hexec, hexec, field_toNat 16 _, fun hstore => ?_, fun b hb => ?_, fun hsub hneg => ?_⟩
    · exact hrow.updated_mem_of_ne_store (by omega) s
    · exact (hrow.updated_read s b).trans (if_neg fun h => hb h.2)
    · exact hrow.updated_acc_of_ne_arithmetic (by omega) (by omega) s
  · rw [hrow.eq_stop_iff.mpr (by omega), Machine.exec_stop]

end Sys2Proof

/-! PROOFS. The assembly level (45_assembly): which tag a line is paired with (R156), where the symbol table puts a tag
(R160, R162), and what one line becomes (R163, R165, R166). -/

namespace Sys2Proof

namespace Assembly

/-! ## Tag association (R156) -/

/-- The tag a record declares, if it is a TagDeclaration. -/
def Line.declaredTag : Line → Option String
  | .tag name => some name
  | .real _ => none

/-- The tag `associateFrom` has pending once it has read `lines`: that of the last record read, if any was. -/
def pendingAfter (pending : Option String) (lines : List Line) : Option String :=
  match lines.getLast? with
  | some line => line.declaredTag
  | none => pending

theorem pendingAfter_cons (pending : Option String) (line : Line) (rest : List Line) :
    pendingAfter pending (line :: rest) = pendingAfter line.declaredTag rest := by
  rw [pendingAfter, pendingAfter, List.getLast?_cons]
  cases rest.getLast? <;> rfl

theorem associateFrom_append (pending : Option String) (pre post : List Line) :
    associateFrom pending (pre ++ post) = associateFrom pending pre ++ associateFrom (pendingAfter pending pre) post := by
  induction pre generalizing pending with
  | nil => rfl
  | cons line rest ih =>
    rw [pendingAfter_cons]
    cases line with
    | tag name => exact ih (some name)
    | real r => exact congrArg ((pending, r) :: ·) (ih none)

theorem associateFrom_tags (pending : Option String) (names : List String) :
    associateFrom pending (names.map .tag) = [] := by
  induction names generalizing pending with
  | nil => rfl
  | cons name rest ih => exact ih (some name)

/-! ## The symbol table (R160, R162) -/

variable {name : String} {pairs : List (Option String × RealLine)} {p : Option String × RealLine} {k : Nat}

theorem buildFrom_append (k : Nat) (table : SymbolTable) (xs ys : List (Option String × RealLine)) :
    buildFrom k table (xs ++ ys) = buildFrom (k + xs.length) (buildFrom k table xs) ys := by
  induction xs generalizing k table with
  | nil => rfl
  | cons x rest ih =>
    rw [List.length_cons, Nat.add_comm rest.length, ← Nat.add_assoc]
    obtain ⟨_ | tag, r⟩ := x
    · exact ih (k + 1) table
    · exact ih (k + 1) ((tag, k) :: table)

/-- The pair that comes last decides, if it carries the name (decision D15). -/
theorem find_build_concat (name : String) (pairs : List (Option String × RealLine)) (p : Option String × RealLine) :
    SymbolTable.find name (build (pairs ++ [p])) =
      if p.1 = some name then some pairs.length else SymbolTable.find name (build pairs) := by
  rw [build, buildFrom_append, Nat.zero_add]
  obtain ⟨_ | tag, r⟩ := p
  · rfl
  · simp only [Option.some.injEq]
    rfl

/-- The pair at position `k` carries the name. -/
def TagAt (name : String) (pairs : List (Option String × RealLine)) (k : Nat) : Prop :=
  ∃ r, pairs[k]? = some (some name, r)

theorem TagAt.lt_length (h : TagAt name pairs k) : k < pairs.length := by
  obtain ⟨r, hr⟩ := h
  exact (List.getElem?_eq_some_iff.mp hr).1

theorem tagAt_concat : TagAt name (pairs ++ [p]) k ↔ TagAt name pairs k ∨ k = pairs.length ∧ p.1 = some name := by
  rcases lt_trichotomy k pairs.length with hk | hk | hk
  · simp [TagAt, List.getElem?_append_left hk, hk.ne]
  · simp [TagAt, hk, Prod.ext_iff]
  · have hend : (pairs ++ [p]).length ≤ k := by simpa using hk
    simp [TagAt, List.getElem?_eq_none hend, List.getElem?_eq_none hk.le, hk.ne']

/-- The name is found at `k` exactly when `k` is the last position that carries it. -/
theorem find_build_eq_some_iff :
    SymbolTable.find name (build pairs) = some k ↔ TagAt name pairs k ∧ ∀ j, k < j → ¬ TagAt name pairs j := by
  induction pairs using List.reverseRecOn with
  | nil => simp [build, buildFrom, SymbolTable.find, TagAt]
  | append_singleton pairs p ih =>
    rw [find_build_concat]
    by_cases hp : p.1 = some name
    · rw [if_pos hp]
      simp only [tagAt_concat]
      constructor
      · rintro ⟨⟩
        refine ⟨.inr ⟨rfl, hp⟩, fun j hj h => ?_⟩
        obtain h | ⟨rfl, -⟩ := h
        · exact absurd h.lt_length hj.not_gt
        · exact hj.false
      · rintro ⟨h | ⟨rfl, -⟩, hlast⟩
        · exact absurd (.inr ⟨rfl, hp⟩) (hlast pairs.length h.lt_length)
        · rfl
    · rw [if_neg hp, ih]
      simp only [tagAt_concat, hp, and_false, or_false]

theorem find_build_eq_none_iff :
    SymbolTable.find name (build pairs) = none ↔ ∀ j, ¬ TagAt name pairs j := by
  induction pairs using List.reverseRecOn with
  | nil => simp [build, buildFrom, SymbolTable.find, TagAt]
  | append_singleton pairs p ih =>
    rw [find_build_concat]
    by_cases hp : p.1 = some name
    · rw [if_pos hp]
      exact ⟨nofun, fun h => absurd (tagAt_concat.mpr (.inr ⟨rfl, hp⟩)) (h pairs.length)⟩
    · rw [if_neg hp, ih]
      simp only [tagAt_concat, hp, and_false, or_false]

/-! ## What one line becomes (R163, R165, R166) -/

theorem resolveValue_of_find_some {table : SymbolTable} (h : table.find name = some k) :
    resolveValue table (.tagReference name) = .ok (k : Int) := by
  rw [resolveValue, h]

theorem resolveValue_of_find_none {table : SymbolTable} (h : table.find name = none) :
    resolveValue table (.tagReference name) = .error (.unknownTagName name) := by
  rw [resolveValue, h]

variable {c : Config} {table : SymbolTable} {r : RealLine} {e : ValueExpr} {i : Int → Instr} {z : Int} {x : LinkError}

/-- A line that maps its operand into a variant `i` is the encoded variant; of the five address-bearing lines the
hypothesis holds by definition. -/
theorem resolveLine_of_operand (hr : resolveInstr c.W table r = (resolveValue table e).map i)
    (hz : resolveValue table e = .ok z) : resolveLine c table r = .ok (encode c.W c.F c.subEnc (i z)) := by
  rw [resolveLine, hr, hz]
  rfl

theorem resolveLine_of_operand_error (hr : resolveInstr c.W table r = (resolveValue table e).map i)
    (hx : resolveValue table e = .error x) : resolveLine c table r = .error x := by
  rw [resolveLine, hr, hx]
  rfl

theorem valueFits_iff {W : Nat} : valueFits W z = true ↔ -2 ^ (W - 1) ≤ z ∧ z < 2 ^ W := by
  simp [valueFits]

theorem resolveLine_data_of_fits (hz : resolveValue table e = .ok z) (hfit : valueFits c.W z = true) :
    resolveLine c table (.data e) = .ok (word c.W z) := by
  have hi : resolveInstr c.W table (.data e) = .ok (.absoluteValue z) := by
    rw [resolveInstr, hz]
    exact if_pos hfit
  rw [resolveLine, hi]
  rfl

theorem resolveLine_data_of_misfit (hz : resolveValue table e = .ok z) (hfit : ¬ valueFits c.W z = true) :
    resolveLine c table (.data e) = .error (.valueDoesNotFit z) := by
  have hi : resolveInstr c.W table (.data e) = .error (.valueDoesNotFit z) := by
    rw [resolveInstr, hz]
    exact if_neg hfit
  rw [resolveLine, hi]
  rfl

end Assembly

/-- The operand field of an encoding (R61, R70). -/
theorem low5_encode {W F : Nat} {i : Instr} (hi : i.isRuntime = true) (hF : 8 ≤ F) (hFW : F ≤ W) (e : BitVec 3) :
    low5 (encode W F e i) = getOperand i := by
  rw [encode_eq_packWord hi, low5_packWord hF hFW]

/-- Settles O44: reading the records before the line leaves pending the tag of the last of them. -/
theorem nearestTagBindsNextRealLine : Obligations.NearestTagBindsNextRealLine := by
  refine ⟨fun pre post r => ?_, fun names => Assembly.associateFrom_tags none names⟩
  rw [Assembly.associate, Assembly.associateFrom_append, Assembly.pendingAfter]
  rcases pre.getLast? with _ | _ | _ <;> rfl

/-- Settles O45, by induction on the pairs from the last one backwards. -/
theorem symbolTableHoldsLastPosition : Obligations.SymbolTableHoldsLastPosition := by
  intro pairs name
  refine ⟨fun k => ?_, ?_⟩
  · exact Assembly.find_build_eq_some_iff.trans (and_congr_right fun _ =>
      ⟨fun h j r hj hr => h j hj ⟨r, hr⟩, fun h j hj ⟨r, hr⟩ => h j r hj hr⟩)
  · exact Assembly.find_build_eq_none_iff.trans ⟨fun h j r hr => h j ⟨r, hr⟩, fun h j ⟨r, hr⟩ => h j r hr⟩

/-- Settles O46, by the two answers of a look-up in the table. -/
theorem valueExpressionsResolve : Obligations.ValueExpressionsResolve := fun _ =>
  ⟨fun _ => rfl, fun _ => ⟨fun _ => Assembly.resolveValue_of_find_some, Assembly.resolveValue_of_find_none⟩⟩

/-- Settles O47: the five address-bearing lines are one rule, and the operand field of their word is the masked operand. -/
theorem instructionLinesEncode : Obligations.InstructionLinesEncode := by
  intro c hc table
  obtain ⟨hF, hFW, -⟩ := c.valid_iff.mp hc
  refine ⟨fun e z hz => ⟨?_, ?_, ?_, ?_, ?_, fun i hi => ?_⟩, fun e x hx r hr => ?_, rfl, rfl⟩
  · exact Assembly.resolveLine_of_operand rfl hz
  · exact Assembly.resolveLine_of_operand rfl hz
  · exact Assembly.resolveLine_of_operand rfl hz
  · exact Assembly.resolveLine_of_operand rfl hz
  · exact Assembly.resolveLine_of_operand rfl hz
  · have hvariant : i.isRuntime = true ∧ getOperand i = maskAddr z := by
      simp only [List.mem_cons, List.not_mem_nil, or_false] at hi
      rcases hi with rfl | rfl | rfl | rfl | rfl <;> exact ⟨rfl, rfl⟩
    obtain ⟨hrun, hoperand⟩ := hvariant
    have hlow : ((low5 (encode c.W c.F c.subEnc i)).toNat : Int) = z % 32 := by
      rw [low5_encode hrun hF hFW, hoperand, maskAddr_toNat]
    rw [low5_toNat] at hlow
    exact hlow
  · simp only [List.mem_cons, List.not_mem_nil, or_false] at hr
    rcases hr with rfl | rfl | rfl | rfl | rfl <;> exact Assembly.resolveLine_of_operand_error rfl hx

/-- Settles O48: a data line is `word(z)` exactly where `z` fits a word. -/
theorem dataLinesPlaceRawWords : Obligations.DataLinesPlaceRawWords := by
  intro c _ table e z hz
  refine ⟨fun hlo hhi => ?_, fun hout => ?_⟩
  · exact ⟨_, Assembly.resolveLine_data_of_fits hz (Assembly.valueFits_iff.mpr ⟨hlo, hhi⟩), word_toNat z⟩
  · refine Assembly.resolveLine_data_of_misfit hz fun hfit => ?_
    obtain ⟨hlo, hhi⟩ := Assembly.valueFits_iff.mp hfit
    exact hout.elim hlo.not_gt hhi.not_ge

end Sys2Proof

/-! PROOFS. The linker (R168 to R171): the lines resolve together exactly when each does, and otherwise fail with the first
that does not; the image is the resolved words and then zeros. -/

namespace Sys2Proof

namespace Assembly

variable {c : Config} {table : SymbolTable} {pairs : List (Option String × RealLine)} {p : Option String × RealLine}
  {ws : List (BitVec c.W)} {w : BitVec c.W} {x : LinkError} {lines : List Line} {image : Image c.W}

/-! ## All lines in order (R168, R169) -/

theorem resolveAll_cons_of_error (hp : resolveLine c table p.2 = .error x) :
    resolveAll c table (p :: pairs) = .error x := by
  rw [resolveAll, hp]

theorem resolveAll_cons_of_ok (hp : resolveLine c table p.2 = .ok w) :
    resolveAll c table (p :: pairs) = (resolveAll c table pairs).map (w :: ·) := by
  rw [resolveAll, hp]
  cases resolveAll c table pairs <;> rfl

theorem except_map_eq_ok {ε α β : Type} {f : α → β} {a : Except ε α} {b : β} :
    a.map f = .ok b ↔ ∃ y, a = .ok y ∧ f y = b := by
  cases a <;> simp [Except.map]

theorem resolveAll_cons_eq_ok_iff :
    resolveAll c table (p :: pairs) = .ok ws ↔
      ∃ w rest, resolveLine c table p.2 = .ok w ∧ resolveAll c table pairs = .ok rest ∧ ws = w :: rest := by
  cases hp : resolveLine c table p.2 with
  | error y => simp [resolveAll_cons_of_error hp]
  | ok w => simp [resolveAll_cons_of_ok hp, except_map_eq_ok, eq_comm (a := ws)]

/-- The lines resolve to `ws` exactly when each resolves to the word at its place. -/
theorem resolveAll_eq_ok_iff :
    resolveAll c table pairs = .ok ws ↔ List.Forall₂ (fun p w => resolveLine c table p.2 = .ok w) pairs ws := by
  induction pairs generalizing ws with
  | nil => simp [resolveAll, eq_comm]
  | cons p rest ih => simp only [resolveAll_cons_eq_ok_iff, List.forall₂_cons_left_iff, ih]

theorem resolveAll_length (h : resolveAll c table pairs = .ok ws) : ws.length = pairs.length :=
  (resolveAll_eq_ok_iff.mp h).length_eq.symm

theorem resolveAll_getElem? (h : resolveAll c table pairs = .ok ws) {k : Nat} (hp : pairs[k]? = some p) :
    resolveLine c table p.2 = .ok (ws[k]?.getD 0#c.W) := by
  obtain ⟨hk, rfl⟩ := List.getElem?_eq_some_iff.mp hp
  have hk' : k < ws.length := (resolveAll_length h).symm ▸ hk
  rw [List.getElem?_eq_getElem hk']
  exact (resolveAll_eq_ok_iff.mp h).get hk hk'

theorem exists_resolveAll_eq_ok_iff :
    (∃ ws, resolveAll c table pairs = .ok ws) ↔ ∀ p ∈ pairs, ∃ w, resolveLine c table p.2 = .ok w := by
  induction pairs with
  | nil => simp [resolveAll]
  | cons p rest ih =>
    rw [List.forall_mem_cons, ← ih]
    cases hp : resolveLine c table p.2 with
    | error y => simp [resolveAll_cons_of_error hp]
    | ok w => simp [resolveAll_cons_of_ok hp, except_map_eq_ok]

/-- Every line resolves, but there are too many (R170). -/
theorem exists_resolveAll_tooLarge_iff :
    (∃ ws, resolveAll c table pairs = .ok ws ∧ 32 < ws.length ∧ x = .programTooLarge ws.length) ↔
      (∀ p ∈ pairs, ∃ w, resolveLine c table p.2 = .ok w) ∧ 32 < pairs.length ∧ x = .programTooLarge pairs.length := by
  rw [← exists_resolveAll_eq_ok_iff, ← exists_and_right]
  refine exists_congr fun ws => and_congr_right fun hws => ?_
  rw [resolveAll_length hws]

/-- Line `k` is the first that does not resolve, and its error is `x`. -/
def FirstError (c : Config) (table : SymbolTable) (x : LinkError) (pairs : List (Option String × RealLine))
    (k : Nat) : Prop :=
  ∃ p, pairs[k]? = some p ∧ resolveLine c table p.2 = .error x ∧
    ∀ (j : Nat) (q : Option String × RealLine), j < k → pairs[j]? = some q → ∃ w, resolveLine c table q.2 = .ok w

theorem firstError_cons_zero : FirstError c table x (p :: pairs) 0 ↔ resolveLine c table p.2 = .error x := by
  simp [FirstError]

theorem firstError_cons_succ {k : Nat} :
    FirstError c table x (p :: pairs) (k + 1) ↔
      (∃ w, resolveLine c table p.2 = .ok w) ∧ FirstError c table x pairs k := by
  constructor
  · rintro ⟨q, hq, hx, hbefore⟩
    exact ⟨hbefore 0 p (by omega) rfl, q, hq, hx, fun j q' hj hq' => hbefore (j + 1) q' (by omega) hq'⟩
  · rintro ⟨hp, q, hq, hx, hbefore⟩
    refine ⟨q, hq, hx, fun j q' hj hq' => ?_⟩
    cases j with
    | zero => exact Option.some.inj hq' ▸ hp
    | succ j => exact hbefore j q' (by omega) hq'

/-- The lines fail together exactly with the error of the first that does not resolve. -/
theorem resolveAll_eq_error_iff :
    resolveAll c table pairs = .error x ↔ ∃ k, FirstError c table x pairs k := by
  induction pairs with
  | nil => simp [resolveAll, FirstError]
  | cons p rest ih =>
    rw [← Nat.or_exists_add_one]
    simp only [firstError_cons_zero, firstError_cons_succ, exists_and_left, ← ih]
    cases hp : resolveLine c table p.2 with
    | error y => simp [resolveAll_cons_of_error hp]
    | ok w => simp [resolveAll_cons_of_ok hp, except_map_eq_error]

/-! ## The image (R171) -/

theorem imageOf_getElem {W : Nat} (ws : List (BitVec W)) (h : ws.length ≤ 32) {k : Nat} (hk : k < 32) :
    (imageOf ws h)[k] = ws[k]?.getD 0#W := by
  simp only [imageOf, Vector.getElem_mk, List.getElem_toArray]
  by_cases hlt : k < ws.length
  · simp [hlt]
  · simp [List.getElem_append_right (not_lt.mp hlt), hlt]

theorem imageOf_eq_iff {W : Nat} {ws : List (BitVec W)} (h : ws.length ≤ 32) {image : Image W} :
    imageOf ws h = image ↔ ∀ (k : Nat) (hk : k < 32), ws[k]?.getD 0#W = image[k] := by
  constructor
  · rintro rfl k hk
    exact (imageOf_getElem ws h hk).symm
  · intro hwords
    ext1 k hk
    rw [imageOf_getElem ws h hk, hwords k hk]

/-! ## The linker (R168, R170) -/

theorem linkLines_eq_ok_iff :
    linkLines c lines = .ok image ↔
      ∃ ws, resolveAll c (build (associate lines)) (associate lines) = .ok ws ∧
        ∃ h : ws.length ≤ 32, imageOf ws h = image := by
  rw [linkLines]
  cases resolveAll c (build (associate lines)) (associate lines) with
  | error y => simp
  | ok ws => by_cases h : ws.length ≤ 32 <;> simp [h]

theorem linkLines_eq_error_iff :
    linkLines c lines = .error x ↔
      resolveAll c (build (associate lines)) (associate lines) = .error x ∨
      ∃ ws, resolveAll c (build (associate lines)) (associate lines) = .ok ws ∧
        32 < ws.length ∧ x = .programTooLarge ws.length := by
  rw [linkLines]
  cases resolveAll c (build (associate lines)) (associate lines) with
  | error y => simp
  | ok ws =>
    by_cases h : ws.length ≤ 32
    · simp [h]
    · simp [h, not_le.mp h, eq_comm (a := x)]

/-- An image of resolved words, said position by position. -/
theorem exists_imageOf_eq_iff :
    (∃ ws, resolveAll c table pairs = .ok ws ∧ ∃ h : ws.length ≤ 32, imageOf ws h = image) ↔
      pairs.length ≤ 32 ∧ ∀ (k : Nat) (hk : k < 32),
        (∀ p, pairs[k]? = some p → resolveLine c table p.2 = .ok image[k]) ∧
        (pairs.length ≤ k → image[k] = 0#c.W) := by
  constructor
  · rintro ⟨ws, hws, h, himage⟩
    have hwords := (imageOf_eq_iff h).mp himage
    have hlen := resolveAll_length hws
    refine ⟨hlen ▸ h, fun k hk => ⟨fun p hp => ?_, fun hbeyond => ?_⟩⟩
    · rw [← hwords k hk, resolveAll_getElem? hws hp]
    · rw [← hwords k hk, List.getElem?_eq_none (hlen ▸ hbeyond), Option.getD_none]
  · rintro ⟨h, hspec⟩
    obtain ⟨ws, hws⟩ := exists_resolveAll_eq_ok_iff.mpr fun p hp => by
      obtain ⟨k, hk, rfl⟩ := List.mem_iff_getElem.mp hp
      exact ⟨_, (hspec k (by omega)).1 _ (List.getElem?_eq_getElem hk)⟩
    have hlen := resolveAll_length hws
    refine ⟨ws, hws, hlen ▸ h, (imageOf_eq_iff _).mpr fun k hk => ?_⟩
    obtain ⟨hline, hbeyond⟩ := hspec k hk
    rcases lt_or_ge k pairs.length with hlt | hge
    · have hp := List.getElem?_eq_getElem hlt
      exact Except.ok.inj ((resolveAll_getElem? hws hp).symm.trans (hline _ hp))
    · rw [hbeyond hge, List.getElem?_eq_none (hlen ▸ hge), Option.getD_none]

end Assembly

/-- Settles O49: inside the bounds `link` is `imageOf` of the resolved words. -/
theorem linkBuildsTheImage : Obligations.LinkBuildsTheImage := by
  intro c lines image
  refine ⟨fun h => ?_, ?_⟩
  · rw [Assembly.linkAndLoad, h]
    rfl
  · cases hv : c.valid with
    | false => simp [Assembly.link_of_refused hv]
    | true => rw [Assembly.link_of_valid hv, Assembly.linkLines_eq_ok_iff, Assembly.exists_imageOf_eq_iff,
        eq_self_iff_true, true_and]

/-- Settles O50: the lines are resolved before their number is looked at (decision D16). -/
theorem linkFailsFast : Obligations.LinkFailsFast := by
  intro c lines x
  cases hv : c.valid with
  | false => simp [Assembly.link_of_refused hv, eq_comm (a := x)]
  | true =>
    rw [Assembly.link_of_valid hv, Assembly.linkLines_eq_error_iff, Assembly.resolveAll_eq_error_iff,
      Assembly.exists_resolveAll_tooLarge_iff]
    simp [Assembly.FirstError]

end Sys2Proof

/-! PROOFS. The diagnostic dump (60_exceptions): it lists the word at every address, and a canonical state is determined by
what it shows (R189, R30). -/

namespace Sys2Proof

variable {W F : Nat}

@[simp] theorem Memory.length_words (m : Memory W) : m.words.length = 32 := by
  simp [Memory.words]

@[simp] theorem Memory.words_getElem? (m : Memory W) (a : Addr) : m.words[a.toNat]? = some (m.read a) := by
  simp [Memory.words, a.isLt]

/-- Canonical memories that list the same words are the same memory. -/
theorem Memory.eq_of_words {m n : Memory W} (hm : m.wf = true) (hn : n.wf = true) (h : m.words = n.words) : m = n :=
  Memory.eq_of_read m n hm hn fun a => by
    rw [← Option.some_inj, ← Memory.words_getElem?, ← Memory.words_getElem?, h]

theorem Engine.dump_eq_iff {s t : Engine.State W F} : Engine.dump s = Engine.dump t ↔
    s.acc = t.acc ∧ s.ir = t.ir ∧ s.pc = t.pc ∧ s.mem.words = t.mem.words := by
  simp [Engine.dump]

/-- The dump determines a state whose memory is canonical. -/
theorem Engine.eq_of_dump {s t : Engine.State W F} (hs : s.mem.wf = true) (ht : t.mem.wf = true)
    (h : Engine.dump s = Engine.dump t) : s = t := by
  obtain ⟨hacc, hir, hpc, hwords⟩ := Engine.dump_eq_iff.mp h
  exact Engine.state_ext (Memory.eq_of_words hs ht hwords) hacc hpc hir

/-- Settles O42: the dump lists what every address reads, and canonical memories are determined by their words. -/
theorem dumpReflectsStateExactly : Obligations.DumpReflectsStateExactly := fun _ _ s _ =>
  ⟨s.mem.length_words, s.mem.words_getElem?, rfl, rfl, rfl, Engine.eq_of_dump⟩

end Sys2Proof

/-! PROOFS. Reset and load (70_reset_and_hazards): `new()` executes `Jump(0)` in place for ever (R195, R99), and after
`new_with_program` the machine holds the image and executes word 0 first (R196, R198). -/

namespace Sys2Proof

variable {W F : Nat}

namespace Engine

/-! ## A state that steps to itself -/

theorem afterSteps_of_step_self {s : State W F} (h : step s = .state s) (k : Nat) : afterSteps k s = some s := by
  induction k with
  | zero => exact afterSteps_zero s
  | succ k ih => rw [afterSteps_succ_state h, ih]

theorem runBounded_of_step_self {s : State W F} (h : step s = .state s) (k : Nat) :
    runBounded s k = (s, .iterationsExceeded s k) :=
  runFrom_eq_iterationsExceeded_iff.mpr ⟨afterSteps_of_step_self h k, rfl, rfl⟩

/-! ## The state `new()` makes -/

/-- `new()` decodes `Jump(0)`, whose target, the zero word at address 0, is its own address. -/
theorem step_new (W F : Nat) : step (new W F) = .state (new W F) := by
  have htarget : ((new W F).mem.read (maskAddr 0)).toNat % 32 = (new W F).pc.toNat := by simp
  rw [step, new_ir, decode_zero]
  exact dispatch_jump_to_self (new_inv W F).1 htarget

end Engine

/-- Settles O39: `new()` steps to itself (`Engine.step_new`), so a run makes all its calls and ends where it began. -/
theorem newIsAllZeroAndNeverStops : Obligations.NewIsAllZeroAndNeverStops := by
  refine ⟨fun W F _ _ => ⟨Memory.read_nil, rfl, rfl, rfl, (Engine.new_inv W F).1, Engine.step_new W F,
    Engine.runBounded_of_step_self (Engine.step_new W F)⟩, rfl, ?_⟩
  exact Machine.step_next.mpr (Engine.step_new 32 16)

/-- Settles O32: reset is `new()` at the reference widths. -/
theorem resetMeetsInvariant : Obligations.ResetMeetsInvariant := Engine.new_inv 32 16

/-- Settles O40: the loaded memory reads as the image, and is canonical with word 0 fetched. -/
theorem loadHoldsTheImage : Obligations.LoadHoldsTheImage := fun _ F m =>
  ⟨Memory.read_ofImage m, rfl, field_toNat F m[0], rfl, Engine.newWithProgram_inv F m⟩

/-- Settles O41: `ir` holds the field of word 0, which decodes as word 0 does. -/
theorem executionBeginsAtAddressZero : Obligations.ExecutionBeginsAtAddressZero := by
  intro W F hF _ m
  refine ⟨rfl, rfl, ?_⟩
  rw [Engine.step, Engine.newWithProgram_ir, decode_field hF]

end Sys2Proof
